-- ==== Sys2Proof/Word.lean ====
section
/-! DEFINITION. The byte, the 32-bit port word, the 8-byte quarter and the 32-byte block (00_scope.md R6, R8). -/

namespace Sys2Proof

/-- A byte, 0..255 (R8). -/
abbrev Byte := BitVec 8

/-- A command word, data word or response word of the command port (R80, R90). -/
abbrev Word := BitVec 32

/-- An 8-byte quarter: the cipher's input or output block (R112, R140). -/
abbrev Quarter := Vector Byte 8

/-- A 32-byte block `Y[0], …, Y[31]` (R8). A cipher key is one too (R140). -/
abbrev Block := Vector Byte 32

/-- The block of 32 zero bytes, `zeros(32)` (R8). -/
def zeroBlock : Block := Vector.replicate 32 0#8

end Sys2Proof
end

