-- ==== Sys2Proof/Syntax.lean ====
section
/-! DEFINITION. The commands of the engine: one constructor per row of spec/opcode_table.json
(30_encoding.md R87). -/

namespace Sys2Proof

/-- The eight commands (R87). -/
inductive Instr where
  /-- NOP (R180). -/
  | nop
  /-- RESET (R171). -/
  | reset
  /-- WRITE nb, dw (R164): the 3-bit field NB and the data word. -/
  | write (nb : BitVec 3) (dw : Word)
  /-- SUM (R165). -/
  | sum
  /-- RDDIG idx (R182): the 3-bit field IDX. -/
  | rddig (idx : BitVec 3)
  /-- GETBS (R172). -/
  | getbs
  /-- GETSZ (R173). -/
  | getsz
  /-- STATUS (R181). -/
  | status
  deriving DecidableEq, Repr

end Sys2Proof
end

