-- ==== Sys2Proof/WellFormed.lean ====
section
/-! DEFINITION. Which commands the encoding can spell as legal words: NB is at most 4 (30_encoding.md R82);
every IDX is legal (R83), and every data word (R85, R86). -/

namespace Sys2Proof

/-- A command that some legal command word spells (R82, R83, R87). -/
def Instr.wellFormed : Instr → Bool
  | .nop => true
  | .reset => true
  | .write nb _ => nb ≤ 4#3
  | .sum => true
  | .rddig _ => true
  | .getbs => true
  | .getsz => true
  | .status => true

end Sys2Proof
end

