-- ==== Sys2Proof/Decode.lean ====
section
/-! DEFINITION. Decode of a command word and its data word, total, rejecting by cause (30_encoding.md R80 to
R88), and the encoder written from the same table (R87, R93). -/

namespace Sys2Proof

/-- The causes of IllegalCommand (60_exceptions.md R202). -/
inductive Cause where
  /-- Code 1: a reserved opcode, `cw[3:0]` in 8..F. -/
  | badOp
  /-- Code 2: a bit outside the opcode's fields is 1. -/
  | badRsvd
  /-- Code 3: a WRITE whose NB is 5, 6 or 7. -/
  | badNb
  deriving DecidableEq, Repr

/-- The value ECODE records for a cause (R202). -/
def causeCode : Cause → BitVec 2
  | .badOp => 1#2
  | .badRsvd => 2#2
  | .badNb => 3#2

/-- `OP = cw[3:0]` (R81). -/
def opField (cw : Word) : BitVec 4 := cw.extractLsb' 0 4

/-- `NB = cw[6:4]` (R82). -/
def nbField (cw : Word) : BitVec 3 := cw.extractLsb' 4 3

/-- `IDX = cw[10:8]` (R83). -/
def idxField (cw : Word) : BitVec 3 := cw.extractLsb' 8 3

/-- The bits that must be 0 for an assigned opcode: `rmask` of R88 (R84). -/
def reservedMask (op : BitVec 4) : Word :=
  if op = 2#4 then 0xFFFFFF80#32
  else if op = 4#4 then 0xFFFFF8F0#32
  else 0xFFFFFFF0#32

/-- The command an assigned opcode selects, with its fields (R81, R87); none for 8..F. -/
def assigned (cw dw : Word) : Option Instr :=
  match (opField cw).toNat with
  | 0 => some .nop
  | 1 => some .reset
  | 2 => some (.write (nbField cw) dw)
  | 3 => some .sum
  | 4 => some (.rddig (idxField cw))
  | 5 => some .getbs
  | 6 => some .getsz
  | 7 => some .status
  | _ => none

/-- Decode (R88): the checks in order, the first that fails giving the cause. Only WRITE reads the data
word (R85, R86). -/
def decode (cw dw : Word) : Except Cause Instr :=
  match assigned cw dw with
  | none => .error .badOp
  | some i =>
    if cw &&& reservedMask (opField cw) ≠ 0#32 then .error .badRsvd
    else if opField cw = 2#4 ∧ 4#3 < nbField cw then .error .badNb
    else .ok i

/-- The match and mask of a command's row in the table (R87). -/
def tableRow : Instr → Word × Word
  | .nop => (0x00000000#32, 0xFFFFFFFF#32)
  | .reset => (0x00000001#32, 0xFFFFFFFF#32)
  | .write _ _ => (0x00000002#32, 0xFFFFFF8F#32)
  | .sum => (0x00000003#32, 0xFFFFFFFF#32)
  | .rddig _ => (0x00000004#32, 0xFFFFF8FF#32)
  | .getbs => (0x00000005#32, 0xFFFFFFFF#32)
  | .getsz => (0x00000006#32, 0xFFFFFFFF#32)
  | .status => (0x00000007#32, 0xFFFFFFFF#32)

/-- The command word and data word of a command (R93): fields placed as R80 draws them, the data word of a
command other than WRITE 0. -/
def encode : Instr → Word × Word
  | .nop => (0x00000000#32, 0#32)
  | .reset => (0x00000001#32, 0#32)
  | .write nb dw => (0x00000002#32 ||| (nb.setWidth 32 <<< 4), dw)
  | .sum => (0x00000003#32, 0#32)
  | .rddig idx => (0x00000004#32 ||| (idx.setWidth 32 <<< 8), 0#32)
  | .getbs => (0x00000005#32, 0#32)
  | .getsz => (0x00000006#32, 0#32)
  | .status => (0x00000007#32, 0#32)

/-- The two port words of an instruction whose low `nbits` bits are those of `w`: the command word in bits
31:0, the data word in bits 63:32, bits at `nbits` and above 0 (R80; log 18). -/
def tableWords (nbits w : Nat) : Word × Word :=
  (BitVec.ofNat 32 (w % 2 ^ nbits), BitVec.ofNat 32 (w % 2 ^ nbits / 2 ^ 32))

/-- The command the decoder reads from an instruction's bits as spec/opcode_table.json numbers them. -/
def decodeTableWord (nbits w : Nat) : Option Instr :=
  match decode (tableWords nbits w).1 (tableWords nbits w).2 with
  | .ok i => some i
  | .error _ => none

end Sys2Proof
end

