-- ==== Sys2Proof/Machine/BlockAlgebra.lean ====
section
/-! DEFINITION. The block algebra (40_block_algebra.md R110 to R119), the integer views of byte sequences
(00_scope.md R9) and the byte lanes of port words (20_memory.md R54). Blocks are in the internal byte order:
byte 0 most significant (R52). -/

namespace Sys2Proof.Machine

/-- `be_int`: byte 0 is the most significant (R9). -/
def beInt (bs : List Byte) : Nat := bs.foldl (fun v x => 256 * v + x.toNat) 0

/-- `le_int`: byte 0 is the least significant (R9). -/
def leInt (bs : List Byte) : Nat := bs.foldr (fun x v => x.toNat + 256 * v) 0

/-- `be_bytes_n(v)`: the n bytes whose `be_int` is v, for v < 256^n (R9). -/
def beBytes (n v : Nat) : Vector Byte n :=
  Vector.ofFn fun i => BitVec.ofNat 8 (v / 256 ^ (n - 1 - i.val))

/-- `le_bytes_n(v)`: the n bytes whose `le_int` is v, for v < 256^n (R9). -/
def leBytes (n v : Nat) : Vector Byte n :=
  Vector.ofFn fun i => BitVec.ofNat 8 (v / 256 ^ i.val)

/-- The port word of w bits that carries these bytes: byte k in bits [8k+7:8k] (R54). -/
def laneWord (w : Nat) (bs : List Byte) : BitVec w := BitVec.ofNat w (leInt bs)

/-- XOR(a, b) (R110). -/
def xorBlock (a b : Block) : Block := Vector.ofFn fun i => a[i] ^^^ b[i]

/-- Reverse(a) (R111). -/
def reverseBlock (a : Block) : Block := Vector.ofFn fun i => a[31 - i.val]

/-- reverse8(q) (R112). -/
def reverse8 (q : Quarter) : Quarter := Vector.ofFn fun i => q[7 - i.val]

/-- A(Y) (R113; C1): `Z[0..8] = Y[16..24] ⊕ Y[24..32]`, `Z[8..32] = Y[0..24]`. -/
def transA (y : Block) : Block := Vector.ofFn fun i =>
  if h : i.val < 8 then y[16 + i.val] ^^^ y[24 + i.val] else y[i.val - 8]

/-- P(Y) (R115; C2): `Z[4r + c] = Y[8c + r]`, r in 0..7, c in 0..3. -/
def permP (y : Block) : Block := Vector.ofFn fun t => y[8 * (t.val % 4) + t.val / 4]

/-- χ(Y) (R116; C3): two feedback bytes, the rest shifted by two. -/
def chi (y : Block) : Block := Vector.ofFn fun i =>
  if h : i.val < 2 then
    y[i.val] ^^^ y[6 + i.val] ^^^ y[24 + i.val] ^^^ y[26 + i.val] ^^^ y[28 + i.val] ^^^ y[30 + i.val]
  else y[i.val - 2]

/-- χ^n(Y) (R117). -/
def chiIter : Nat → Block → Block
  | 0, y => y
  | n + 1, y => chi (chiIter n y)

end Sys2Proof.Machine
end

