-- ==== Sys2Proof/Machine/KeySchedule.lean ====
section
/-! DEFINITION. The key-schedule generator (41_key_schedule.md R130 to R135). -/

namespace Sys2Proof.Machine

/-- C3 (R130), C3[0] first. -/
def constC3 : Block := #v[
  0xff#8, 0x00#8, 0xff#8, 0xff#8, 0x00#8, 0x00#8, 0x00#8, 0xff#8,
  0xff#8, 0x00#8, 0x00#8, 0xff#8, 0x00#8, 0xff#8, 0xff#8, 0x00#8,
  0x00#8, 0xff#8, 0x00#8, 0xff#8, 0x00#8, 0xff#8, 0x00#8, 0xff#8,
  0xff#8, 0x00#8, 0xff#8, 0x00#8, 0xff#8, 0x00#8, 0xff#8, 0x00#8]

/-- The constant C_j of round j (R130): C3 for j = 3, zero for the others. -/
def roundConst (j : Nat) : Block := if j = 3 then constC3 else zeroBlock

/-- U of round n + 1 (R131, R132): U₁ = H, U_j = A(U_(j−1)) ⊕ C_j. -/
def scheduleU (h : Block) : Nat → Block
  | 0 => h
  | n + 1 => xorBlock (transA (scheduleU h n)) (roundConst (n + 2))

/-- V of round n + 1 (R131, R132): V₁ = M, V_j = A(A(V_(j−1))). -/
def scheduleV (m : Block) : Nat → Block
  | 0 => m
  | n + 1 => transA (transA (scheduleV m n))

/-- K of round j + 1 (R131 to R133): P(U ⊕ V). -/
def roundKey (h m : Block) (j : Fin 4) : Block :=
  permP (xorBlock (scheduleU h j.val) (scheduleV m j.val))

/-- KeyGen(H, M) = (K1, K2, K3, K4) (R133). -/
def keyGen (h m : Block) : Vector Block 4 := Vector.ofFn fun j => roundKey h m j

end Sys2Proof.Machine
end

