-- ==== Sys2Proof/Config.lean ====
section
/-! DEFINITION. What the spec leaves OPEN: SBOX, CIPHER, LAT, the order of the cipher calls, and the free
values. Every constant here is opaque, without a body: a claim holds whatever it is. -/

namespace Sys2Proof

/-- A value on the `sbox` input (R40). Its width W_SBOX and its format are the cipher's (D19, N13); the
engine never reads it, so any encoding of it as a number serves (log 6). -/
structure Sbox where
  code : Nat
  deriving DecidableEq, Repr, Inhabited

/-- The parameter SBOX (R40, D19): the set that is driven before the first reset. -/
opaque Config.sbox : Sbox

/-- The parameter CIPHER(sbox, key, in) (R41, R140, D18). The engine assumes nothing of it beyond being a
total function of its three arguments (log 5). -/
opaque Config.cipher : Sbox → Block → Quarter → Quarter

/-- The parameter LAT, in cycles, of a command word (R242, D25; log 7). -/
opaque Config.lat : Word → Nat

/-- Which of the unanswered cipher calls of one Step, each a key and an input block, is requested next
(R146, D32; log 8): an index, read modulo the number of calls left. -/
opaque Config.cphPick : List (Block × Quarter) → Nat

/-- The free values a digest takes after SBOX moved (R236, U4; log 14, 15). -/
opaque Config.freeDigest : Nat → Block

end Sys2Proof
end

