-- ==== Sys2Proof/Machine/State.lean ====
section
/-! DEFINITION. The state of the engine (10_state.md), the pins that drive it (20_memory.md R56), the reasons
a step can stop, and the state after reset (R42). -/

namespace Sys2Proof.Machine

/-- One call `CIPHER(SBOX, key, pin)` as the adapter makes it (42_cipher_adapter.md R143, R145). -/
structure CphCall where
  key : Block
  pin : Quarter
  deriving DecidableEq, Repr

/-- What is driven on the input pins at one rising edge of clk (20_memory.md R56). The defaults are the
pins at rest: nothing asserted, SBOX steady. -/
structure Pins where
  /-- `rst`. -/
  rst : Bool := false
  /-- A value that `sbox` carries from this edge on; none: it stays as it is. -/
  sbox : Option Sbox := none
  /-- `cmd_valid`. -/
  cmdValid : Bool := false
  /-- `cmd_word`. -/
  cmdWord : Word := 0#32
  /-- `cmd_data`. -/
  cmdData : Word := 0#32
  /-- `rsp_ready`. -/
  rspReady : Bool := false
  /-- `cph_ack`. -/
  cphAck : Bool := false
  /-- `cph_out`, in the lane order of R54. -/
  cphOut : BitVec 64 := 0#64
  deriving DecidableEq, Repr

/-- The in-flight flag (10_state.md R35) with the handshake's two halves (20_memory.md R57). -/
inductive Phase where
  /-- No command in flight: cmd_ready = 1. -/
  | idle
  /-- The command with this word was captured and has no response yet; this many edges have passed since. -/
  | busy (cw : Word) (elapsed : Nat)
  /-- rsp_valid = 1: the response waits to be taken. -/
  | responding
  deriving DecidableEq, Repr

/-- The reasons the engine stops with a fault: none. No command fails and there is no trap (60_exceptions.md
R200, R205); an illegal word is recorded in ERR and ECODE and the engine goes on (R201; log 23). -/
inductive Fault where
  deriving DecidableEq, Repr

/-- The reasons the model does not accept a run. -/
inductive Refusal where
  /-- Raised by an arm of exec for a command without a meaning. None is left. Safe: the run stops. -/
  | notModelled (mnemonic : String)
  /-- Raised by the clock edge: the host changed or withdrew a command before it transferred
  (70_reset_and_hazards.md R237, U5: refuse). Safe: the run stops. -/
  | commandNotHeld
  /-- Raised by the clock edge: the cipher acknowledged a request with a value other than CIPHER's
  (42_cipher_adapter.md R145, U6: refuse). Safe: the run stops. -/
  | cipherAnswerWrong
  deriving DecidableEq, Repr

/-- The engine, and what is driven on its pins. -/
structure State where
  /-- H, the chaining value (R22). -/
  h : Block
  /-- L, the message counter (R23). -/
  l : BitVec 64
  /-- Σ, the checksum (R24). -/
  sigma : BitVec 256
  /-- B, the pending buffer; its length is BLEN (R25). -/
  b : List Byte
  /-- D, the digest register (R27). -/
  d : Block
  /-- DVALID (R28). -/
  dvalid : Bool
  /-- ERR (R29). -/
  err : Bool
  /-- ECODE (R30). -/
  ecode : BitVec 2
  /-- LOVF (R31). -/
  lovf : Bool
  /-- The in-flight flag (R35, R57). -/
  phase : Phase
  /-- The word `rsp_word` carries while a response waits (R57, R90). -/
  rspWord : Word
  /-- The cipher calls of the command in flight not answered yet, one list per Step call (R144, R145). -/
  cphTodo : List (List CphCall)
  /-- `cph_req` (R145). -/
  cphReq : Bool
  /-- The value on the `sbox` input (R40, R56). -/
  sbox : Sbox
  /-- The model's own: SBOX has moved since the last reset (R236, U4; log 14). -/
  sboxMoved : Bool
  /-- The model's own: how many free values have been used (log 15). -/
  free : Nat
  /-- The model's own: what is driven on the pins at the coming edges, the next edge first (log 2). -/
  inputs : List Pins
  /-- The model's own: a command that was offered and has not transferred, word and data (R237; log 13). -/
  held : Option (Word × Word)
  deriving DecidableEq, Repr

/-- The state after reset (10_state.md R42, R231). The spec gives no value for `rspWord` (log 4); `sbox` is
the parameter (log 6); the model's own fields start empty (log 2, 13, 14, 15). -/
def State.reset : State where
  h := zeroBlock
  l := 0#64
  sigma := 0#256
  b := []
  d := zeroBlock
  dvalid := false
  err := false
  ecode := 0#2
  lovf := false
  phase := .idle
  rspWord := 0#32
  cphTodo := []
  cphReq := false
  sbox := Config.sbox
  sboxMoved := false
  free := 0
  inputs := []
  held := none

end Sys2Proof.Machine
end

