-- ==== Sys2Proof/Machine/CipherAdapter.lean ====
section
/-! DEFINITION. The cipher adapter (42_cipher_adapter.md R142 to R144, R146). The cipher is an argument: an
encryption `key → block → block` (R140). Round j + 1 of the spec is index j here. -/

namespace Sys2Proof.Machine

/-- An encryption under one S-box: key and input block to output block (R140). -/
abbrev Encrypt := Block → Quarter → Quarter

/-- The quarter that round j + 1 consumes, `q_(j+1) = H[24 − 8j .. 32 − 8j]` (R142; C4). -/
def quarterOf (h : Block) (j : Fin 4) : Quarter := Vector.ofFn fun i => h[24 - 8 * j.val + i.val]

/-- The cipher call of round j + 1: key Reverse(K), input reverse8(q) (R135, R143; C10). -/
def roundCall (h m : Block) (j : Fin 4) : CphCall :=
  { key := reverseBlock (roundKey h m j), pin := reverse8 (quarterOf h j) }

/-- Encrypt of round j + 1 (R143): s = reverse8 of the cipher's output (C7). -/
def encryptRound (enc : Encrypt) (h m : Block) (j : Fin 4) : Quarter :=
  reverse8 (enc (roundCall h m j).key (roundCall h m j).pin)

/-- SBlock(H, M) = s4 ‖ s3 ‖ s2 ‖ s1 (R144; C4): byte i lies in slot i / 8, which round 4 − i / 8 fills. -/
def sBlock (enc : Encrypt) (h m : Block) : Block := Vector.ofFn fun i =>
  (encryptRound enc h m ⟨3 - i.val / 8, by omega⟩)[i.val % 8]

/-- The four cipher calls of one Step (R144). Which goes first is open (R146). -/
def stepCalls (h m : Block) : List CphCall := List.ofFn (roundCall h m)

end Sys2Proof.Machine
end

