-- ==== Sys2Proof/Machine/Compression.lean ====
section
/-! DEFINITION. The compression step (43_compression_step.md R150 to R153). -/

namespace Sys2Proof.Machine

/-- Step(H, M) (R150): S, then T = χ^12(S) ⊕ M, W = χ(T) ⊕ H, H' = χ^61(W) (R151).
Irreducible, so that comparing two states never runs its 74 rounds; `unfold compress` opens it. -/
@[irreducible] def compress (enc : Encrypt) (h m : Block) : Block :=
  let t := xorBlock (chiIter 12 (sBlock enc h m)) m
  let w := xorBlock (chi t) h
  chiIter 61 w

end Sys2Proof.Machine
end

