-- ==== Sys2Proof/Machine/Flags.lean ====
section
/-! DEFINITION. The status word and the computations of the counters and flags (10_state.md R28 to R32,
44_streaming.md R162, R163). -/

namespace Sys2Proof.Machine

/-- A 1-bit flag as a word. -/
def flagWord (f : Bool) : Word := if f then 1#32 else 0#32

/-- BLEN = |B|, a 5-bit count (R25; log 21). -/
def blen (s : State) : BitVec 5 := BitVec.ofNat 5 s.b.length

/-- The STATUS word (R32, R181). -/
def statusWord (s : State) : Word :=
  (s.ecode.setWidth 32 <<< 12) ||| ((blen s).setWidth 32 <<< 4) |||
    (flagWord s.lovf <<< 2) ||| (flagWord s.err <<< 1) ||| flagWord s.dvalid

/-- L after one block: `(L + 256) mod 2^64` (R23, R163). -/
def counterAdd (l : BitVec 64) : BitVec 64 := l + 256#64

/-- LOVF after one block: set when `L + 256 ≥ 2^64`, else kept (R31, R163). -/
def overflowAfter (l : BitVec 64) (lovf : Bool) : Bool :=
  lovf || decide (2 ^ 64 ≤ l.toNat + 256)

/-- Σ after a block held in internal order: `(Σ + be_int(m)) mod 2^256` (R24, R162). -/
def checksumAdd (sigma : BitVec 256) (m : Block) : BitVec 256 :=
  sigma + BitVec.ofNat 256 (beInt m.toList)

end Sys2Proof.Machine
end

