-- ==== Sys2Proof/Machine/Operands.lean ====
section
/-! DEFINITION. The operands of the commands: the bytes of a WRITE (30_encoding.md R85), the words of the
digest (R91), and the blocks SUM forms (44_streaming.md R166 to R168). -/

namespace Sys2Proof.Machine

/-- Byte k of a data word, `dw[8k+7:8k]` (R54, R85). -/
def dataByte (dw : Word) (k : Nat) : Byte := dw.extractLsb' (8 * k) 8

/-- The message bytes a WRITE carries: lanes 0 .. NB − 1, in order (R85). -/
def dataBytes (nb : BitVec 3) (dw : Word) : List Byte := (List.range nb.toNat).map (dataByte dw)

/-- Digest word i: `le_int(D[4i .. 4i+4])` (R91). -/
def digestWord (d : Block) (i : BitVec 3) : Word :=
  laneWord 32 ((d.toList.drop (4 * i.toNat)).take 4)

/-- The block of a byte sequence, zero bytes after it: B when it is full (R161), `B ‖ zeros(32 − |B|)` when
it is not (R166). -/
def padBlock (bs : List Byte) : Block := Vector.ofFn fun i => bs.getD i.val 0#8

/-- The length block: `zeros(24) ‖ be_bytes_8(L')` (R167). -/
def lengthBlock (l : BitVec 64) : Block := beBytes 32 l.toNat

/-- The checksum block: `be_bytes_32(Σ')` (R168). -/
def checksumBlock (sigma : BitVec 256) : Block := beBytes 32 sigma.toNat

end Sys2Proof.Machine
end

