-- ==== Sys2Proof/Machine/Ops.lean ====
section
/-! DEFINITION. The operations the commands share: answering, absorbing bytes and blocks (44_streaming.md R161
to R164), the SUM's shadow copies (R165), taking the IllegalCommand exception (60_exceptions.md R201), and the
reset state (10_state.md R42). -/

namespace Sys2Proof.Machine

/-- The cipher as this engine is wired: CIPHER under the SBOX it is driven with (R40, R140). -/
def State.encrypt (s : State) : Encrypt := Config.cipher s.sbox

/-- Give a command its response word (R90). -/
def respond (rw : Word) (s : State) : State := { s with rspWord := rw }

/-- Answer with the STATUS word of the state the command leaves (R32, R90). -/
def respondStatus (s : State) : State := respond (statusWord s) s

/-- AbsorbBlock(raw) (R161 to R163). The four cipher calls of its Step go on the cipher port (R145). -/
def absorbBlock (raw : Block) (s : State) : State :=
  { s with
    h := compress s.encrypt s.h (reverseBlock raw)
    sigma := checksumAdd s.sigma (reverseBlock raw)
    lovf := overflowAfter s.l s.lovf
    l := counterAdd s.l
    b := []
    cphTodo := s.cphTodo ++ [stepCalls s.h (reverseBlock raw)] }

/-- Append one byte to B, and absorb B when that fills it (R164). -/
def appendByte (s : State) (x : Byte) : State :=
  if (s.b ++ [x]).length = 32 then absorbBlock (padBlock (s.b ++ [x])) s
  else { s with b := s.b ++ [x] }

/-- Append bytes in order (R164). -/
def appendBytes (s : State) (bs : List Byte) : State := bs.foldl appendByte s

/-- The shadow copies H', L', Σ' of a SUM (R165), with the cipher calls made so far (R145). -/
structure Shadow where
  h : Block
  l : BitVec 64
  sigma : BitVec 256
  calls : List (List CphCall)
  deriving DecidableEq, Repr

/-- `H' ← Step(H', m)` on the shadow copies (R165). -/
def shadowStep (enc : Encrypt) (m : Block) (c : Shadow) : Shadow :=
  { c with h := compress enc c.h m, calls := c.calls ++ [stepCalls c.h m] }

/-- The tail of a SUM (R166): nothing when B is empty; else one Step with the reversed padded tail, which
also goes into Σ' and L'. -/
def shadowTail (enc : Encrypt) (b : List Byte) (c : Shadow) : Shadow :=
  if b = [] then c
  else
    { shadowStep enc (reverseBlock (padBlock b)) c with
      sigma := checksumAdd c.sigma (reverseBlock (padBlock b))
      l := c.l + BitVec.ofNat 64 (8 * b.length) }

/-- The SUM's computation on the shadow copies (R165 to R168): tail, length block, checksum block. -/
def finalize (s : State) : Shadow :=
  let c := shadowTail s.encrypt s.b { h := s.h, l := s.l, sigma := s.sigma, calls := [] }
  shadowStep s.encrypt (checksumBlock c.sigma) (shadowStep s.encrypt (lengthBlock c.l) c)

/-- Write D with the digest of this final chaining value (R169), or with a free value when SBOX has moved
since the last reset (R236, U4; log 14). -/
def writeDigest (hFinal : Block) (s : State) : State :=
  if s.sboxMoved then { s with d := Config.freeDigest s.free, free := s.free + 1 }
  else { s with d := reverseBlock hFinal }

/-- IllegalCommand(code) (R201): the first cause is kept, ERR is set, the response is STATUS after that, and
nothing else changes. There is no return from it (R206): RESET, `clearEngine`, clears ERR and ECODE. -/
def raiseIllegal (c : Cause) (s : State) : State :=
  respondStatus { s with ecode := if s.err then s.ecode else causeCode c, err := true }

/-- The reset values of R42, which RESET writes (R171); SBOX is a parameter and stays, and from here on it
has not moved (R236). -/
def clearEngine (s : State) : State :=
  { s with
    h := zeroBlock, l := 0#64, sigma := 0#256, b := [], d := zeroBlock
    dvalid := false, err := false, ecode := 0#2, lovf := false, sboxMoved := false }

end Sys2Proof.Machine
end

