-- ==== Sys2Proof/Machine/HostControl.lean ====
section
/-! DEFINITION. The host control commands NOP, STATUS, RDDIG (45_host_control.md R180 to R182). -/

namespace Sys2Proof.Machine

/-- NOP (R180): answer STATUS. -/
def execNop (s : State) : Host.Outcome State Fault Refusal := .next (respondStatus s)

/-- STATUS (R181): answer STATUS. -/
def execStatus (s : State) : Host.Outcome State Fault Refusal := .next (respondStatus s)

/-- RDDIG i (R182): answer digest word i, whatever DVALID says. -/
def execRddig (idx : BitVec 3) (s : State) : Host.Outcome State Fault Refusal :=
  .next (respond (digestWord s.d idx) s)

end Sys2Proof.Machine
end

