-- ==== Sys2Proof/Machine/Streaming.lean ====
section
/-! DEFINITION. The streaming commands WRITE, SUM, RESET, GETBS, GETSZ (44_streaming.md R164 to R173). -/

namespace Sys2Proof.Machine

/-- WRITE nb, dw (R164): append the bytes, absorb a block when one fills, clear DVALID when nb ≥ 1 (R28),
answer nb. NB = 5..7 is no command: it takes IllegalCommand(3) (R88, R202; log 16). -/
def execWrite (nb : BitVec 3) (dw : Word) (s : State) : Host.Outcome State Fault Refusal :=
  if nb ≤ 4#3 then
    let t := appendBytes s (dataBytes nb dw)
    .next (respond (nb.setWidth 32) { t with dvalid := if nb = 0#3 then t.dvalid else false })
  else .next (raiseIllegal .badNb s)

/-- SUM (R165): finalize on shadow copies, write D and set DVALID, answer STATUS. H, L, Σ, B stay (R170). -/
def execSum (s : State) : Host.Outcome State Fault Refusal :=
  let c := finalize s
  .next (respondStatus
    { writeDigest c.h s with dvalid := true, cphTodo := s.cphTodo ++ c.calls })

/-- RESET (R171): the state of R42, answer STATUS, which is 0. -/
def execReset (s : State) : Host.Outcome State Fault Refusal :=
  .next (respondStatus (clearEngine s))

/-- GETBS (R172): answer 32. -/
def execGetbs (s : State) : Host.Outcome State Fault Refusal := .next (respond 0x00000020#32 s)

/-- GETSZ (R173): answer 32. -/
def execGetsz (s : State) : Host.Outcome State Fault Refusal := .next (respond 0x00000020#32 s)

end Sys2Proof.Machine
end

