-- ==== Sys2Proof/Machine/Dispatch.lean ====
section
/-! DEFINITION. The meaning of every command (30_encoding.md R87): one arm per row of the table. -/

namespace Sys2Proof.Machine

def exec (i : Instr) (s : State) : Host.Outcome State Fault Refusal :=
  match i with
  | .nop => Sys2Proof.Machine.execNop s
  | .reset => Sys2Proof.Machine.execReset s
  | .write nb dw => Sys2Proof.Machine.execWrite nb dw s
  | .sum => Sys2Proof.Machine.execSum s
  | .rddig idx => Sys2Proof.Machine.execRddig idx s
  | .getbs => Sys2Proof.Machine.execGetbs s
  | .getsz => Sys2Proof.Machine.execGetsz s
  | .status => Sys2Proof.Machine.execStatus s

end Sys2Proof.Machine
end

