-- ==== Sys2Proof/Machine/Port.lean ====
section
/-! DEFINITION. The ports: the command transaction (20_memory.md R55), the two handshakes (R57), the cipher
port (42_cipher_adapter.md R145), hardware reset (70_reset_and_hazards.md R230 to R233), the SBOX input (R236)
and what one rising edge of clk does with the pins (R56). -/

namespace Sys2Proof.Machine

/-- Exec(σ, cw, dw) of R55: decode the words and run the command, or take IllegalCommand (R88, R201). The
response is `rspWord` of the next state. -/
def transact (cw dw : Word) (s : State) : Host.Outcome State Fault Refusal :=
  match decode cw dw with
  | .ok i => exec i s
  | .error c => .next (raiseIllegal c s)

/-- The command offered at this edge, if any. -/
def offered (p : Pins) : Option (Word × Word) :=
  if p.cmdValid then some (p.cmdWord, p.cmdData) else none

/-- `cmd_ready`: no command in flight, and rst low (R57, R209, R230; log 22). -/
def cmdReady (p : Pins) (s : State) : Bool := decide (s.phase = .idle) && !p.rst

/-- The response offered, `rsp_valid` with `rsp_word` (R57, R230). -/
def rspOffered (p : Pins) (s : State) : Option Word :=
  if s.phase = .responding ∧ p.rst = false then some s.rspWord else none

/-- The cipher call on the port, or to go on it next: one of those left of the earliest Step that is not
finished, which of them being open (R146, D32; log 8, log 9). -/
def currentCall (s : State) : Option CphCall :=
  match s.cphTodo with
  | [] => none
  | calls :: _ =>
    calls[Config.cphPick (calls.map fun c => (c.key, c.pin)) % calls.length]?

/-- The calls left once the current one is answered (R145). -/
def todoAfter (s : State) : List (List CphCall) :=
  match s.cphTodo with
  | [] => []
  | calls :: later =>
    let left := calls.eraseIdx (Config.cphPick (calls.map fun c => (c.key, c.pin)) % calls.length)
    if left = [] then later else left :: later

/-- `cph_req` with `cph_key` and `cph_in`, in the lane order of R54 (R145, R230). The calls are those made at
the accepting edge, also after SBOX moved: the model's choice (log 25). -/
def cphOffered (p : Pins) (s : State) : Option (BitVec 256 × BitVec 64) :=
  if s.cphReq ∧ p.rst = false then
    (currentCall s).map fun c => (laneWord 256 c.key.toList, laneWord 64 c.pin.toList)
  else none

/-- `cph_sbox`: the sbox input, unchanged, at all times (R56, R145). -/
def cphSbox (p : Pins) (s : State) : Sbox := p.sbox.getD s.sbox

/-- Hardware reset (R230, R233): the state of R42 whatever was in flight. What drives the pins is not the
engine's: the inputs to come, the value on sbox, the command the host offers and must go on holding, as it
cannot transfer at this edge (R209, R237; log 13), and the count of free values stay outside it. -/
def hardwareReset (p : Pins) (s : State) : State :=
  { State.reset with
    sbox := p.sbox.getD s.sbox, free := s.free, inputs := s.inputs, held := offered p }

/-- The host has changed or withdrawn the command it offered before it transferred (R237; log 13). -/
def holdBroken (p : Pins) (s : State) : Bool :=
  match s.held with
  | none => false
  | some c => decide (offered p ≠ some c)

/-- A SUM is in flight and its response is not offered yet. -/
def sumInFlight (s : State) : Bool :=
  match s.phase with
  | .busy cw _ => decide (decode cw 0#32 = .ok .sum)
  | _ => false

/-- Sample the sbox input. A new value leaves every digest written from here to the next reset unspecified,
the one of a SUM in flight included (R236, U4; log 14). -/
def driveSbox (p : Pins) (s : State) : State :=
  match p.sbox with
  | none => s
  | some x =>
    if x = s.sbox then s
    else if sumInFlight s then
      { s with sbox := x, sboxMoved := true, d := Config.freeDigest s.free, free := s.free + 1 }
    else { s with sbox := x, sboxMoved := true }

/-- A command transfers (R57): run it and be busy with it. -/
def acceptEdge (p : Pins) (s : State) : Host.Outcome State Fault Refusal :=
  match transact p.cmdWord p.cmdData s with
  | .next t => .next { t with phase := .busy p.cmdWord 0, held := none }
  | .fault r => .fault r
  | .refused r => .refused r

/-- The value on cph_out is the one R145 says it must be (log 11). Once SBOX has moved any value is accepted
and none is used, which is the model's choice: R145 names no one CIPHER(SBOX, ...) then (log 25). -/
def answerRight (p : Pins) (c : CphCall) (s : State) : Bool :=
  s.sboxMoved || decide (p.cphOut = laneWord 64 (s.encrypt c.key c.pin).toList)

/-- An edge while a command is in flight and its response is not ready: raise a request, hold it, or capture
its answer and drop it (R145; log 10, log 12; after SBOX moved, log 25); with no call left, offer the response
once LAT is over (R242; log 7). -/
def busyEdge (p : Pins) (cw : Word) (elapsed : Nat) (s : State) : Host.Outcome State Fault Refusal :=
  match currentCall s with
  | some c =>
    if s.cphReq = false then .next { s with phase := .busy cw (elapsed + 1), cphReq := true }
    else if p.cphAck = false then .next { s with phase := .busy cw (elapsed + 1) }
    else if answerRight p c s then
      .next { s with phase := .busy cw (elapsed + 1), cphReq := false, cphTodo := todoAfter s }
    else .refused .cipherAnswerWrong
  | none =>
    if Config.lat cw ≤ elapsed + 1 then .next { s with phase := .responding }
    else .next { s with phase := .busy cw (elapsed + 1) }

/-- An edge with rst low and the host's offer held: by the phase the engine is in (R57, R215, R238). -/
def runEdge (p : Pins) (s : State) : Host.Outcome State Fault Refusal :=
  match s.phase with
  | .idle =>
    if p.cmdValid then acceptEdge p s else .next { s with held := none }
  | .busy cw elapsed => busyEdge p cw elapsed { s with held := offered p }
  | .responding =>
    if p.rspReady then .next { s with phase := .idle, held := offered p }
    else .next { s with held := offered p }

/-- One rising edge of clk. A broken hold ends the run whatever rst is (R237, U5: no exception for rst;
log 13); in the runs left, rst wins over everything (R209, R230). -/
def clockEdge (p : Pins) (s : State) : Host.Outcome State Fault Refusal :=
  if holdBroken p s then .refused .commandNotHeld
  else if p.rst then .next (hardwareReset p s)
  else runEdge p (driveSbox p s)

/-- The pins at the next edge; with none listed, nothing is asserted and SBOX is steady (log 3). -/
def nextPins (s : State) : Pins := s.inputs.headD {}

/-- What one step does: the next edge, with its pins taken off the list. -/
def nextEdge (s : State) : Host.Outcome State Fault Refusal :=
  clockEdge (nextPins s) { s with inputs := s.inputs.tail }

/-- The engine idle and the host offering these words at the next edge, rst low. -/
def offerCommand (cw dw : Word) (s : State) : State :=
  { s with
    phase := .idle, cphTodo := [], cphReq := false, held := none
    inputs := { cmdValid := true, cmdWord := cw, cmdData := dw } :: s.inputs }

end Sys2Proof.Machine
end

