-- ==== Sys2Proof/Machine/Step.lean ====
section
/-! DEFINITION. The step of the machine, one rising edge of clk (20_memory.md R56; log 1), and the state in
which the next step runs a given instruction. -/

namespace Sys2Proof.Machine

/-- One step: one rising edge of clk. -/
def step (s : State) : Host.Outcome State Fault Refusal := nextEdge s

/-- `s` with an instruction's words offered on an idle command port, so that the next edge takes them (R57;
log 2). -/
def State.withFetchWord (s : State) (nbits w : Nat) : State :=
  offerCommand (tableWords nbits w).1 (tableWords nbits w).2 s

end Sys2Proof.Machine
end

