-- ==== Sys2Proof/Machine/Assembler.lean ====
section
/-! DEFINITION. The assembler (30_encoding.md R93), its pseudo-instructions (R94) and the disassembler (R95).
Text is a list of characters. Numbers too big for their place are refused (log 17). -/

namespace Sys2Proof.Machine

/-- One line of assembly: a command, `.word`, or a pseudo-instruction (R93, R94). -/
inductive AsmLine where
  | nop
  | reset
  | write (nb d : Nat)
  | sum
  | rddig (i : Nat)
  | getbs
  | getsz
  | status
  /-- `.word cw, dw`. -/
  | raw (cw dw : Nat)
  /-- `WRITEB b`. -/
  | writeb (b : Nat)
  /-- `WRITEBYTES b0, …`. -/
  | writebytes (bs : List Nat)
  /-- `WRITES "text"`. -/
  | writes (text : List Char)
  /-- `RDDIGEST`. -/
  | rddigest
  /-- `HASH "text"`. -/
  | hash (text : List Char)
  deriving DecidableEq, Repr

/-- Why the assembler refuses a line (R93; log 17). -/
inductive AsmError where
  | unknownMnemonic
  | badOperands
  | nbTooBig
  | idxTooBig
  | numberTooBig
  | notAscii
  deriving DecidableEq, Repr

/-- WRITE of at most four bytes, the lanes above them 0 (R93, R94). -/
def writeChunk (bs : List Byte) : Word × Word :=
  encode (.write (BitVec.ofNat 3 bs.length) (laneWord 32 bs))

/-- The WRITEs of a byte sequence: four bytes each, the last with what is left (R94). -/
def writeCommands (bs : List Byte) : List (Word × Word) :=
  (List.range ((bs.length + 3) / 4)).map fun t => writeChunk ((bs.drop (4 * t)).take 4)

/-- RDDIG 0 .. RDDIG 7 (R94). -/
def readDigestCommands : List (Word × Word) :=
  (List.range 8).map fun i => encode (.rddig (BitVec.ofNat 3 i))

/-- RESET, the message's WRITEs, SUM, RDDIGEST (R94). -/
def hashCommands (bs : List Byte) : List (Word × Word) :=
  encode .reset :: (writeCommands bs ++ encode .sum :: readDigestCommands)

/-- The bytes of a text, which must be ASCII (R94; log 17). -/
def textBytes (text : List Char) : Except AsmError (List Byte) :=
  if text.all fun c => c.toNat < 128 then .ok (text.map fun c => BitVec.ofNat 8 c.toNat)
  else .error .notAscii

/-- The command words and data words of a line (R93, R94). -/
def assemble : AsmLine → Except AsmError (List (Word × Word))
  | .nop => .ok [encode .nop]
  | .reset => .ok [encode .reset]
  | .write nb d =>
    if 4 < nb then .error .nbTooBig
    else if 2 ^ 32 ≤ d then .error .numberTooBig
    else .ok [writeChunk (dataBytes (BitVec.ofNat 3 nb) (BitVec.ofNat 32 d))]
  | .sum => .ok [encode .sum]
  | .rddig i => if 7 < i then .error .idxTooBig else .ok [encode (.rddig (BitVec.ofNat 3 i))]
  | .getbs => .ok [encode .getbs]
  | .getsz => .ok [encode .getsz]
  | .status => .ok [encode .status]
  | .raw cw dw =>
    if 2 ^ 32 ≤ cw ∨ 2 ^ 32 ≤ dw then .error .numberTooBig
    else .ok [(BitVec.ofNat 32 cw, BitVec.ofNat 32 dw)]
  | .writeb b => if 255 < b then .error .numberTooBig else .ok [writeChunk [BitVec.ofNat 8 b]]
  | .writebytes bs =>
    if bs.any fun b => 255 < b then .error .numberTooBig
    else .ok (writeCommands (bs.map (BitVec.ofNat 8)))
  | .writes text => (textBytes text).map writeCommands
  | .rddigest => .ok readDigestCommands
  | .hash text => (textBytes text).map hashCommands

/-- A space or a tab. -/
def isBlank (c : Char) : Bool := c = ' ' || c = '\t'

/-- A line without the blanks at its two ends. -/
def trimBlanks (cs : List Char) : List Char :=
  ((cs.dropWhile isBlank).reverse.dropWhile isBlank).reverse

/-- The parts of a text between commas (R93). -/
def splitCommas (cs : List Char) : List (List Char) :=
  cs.foldr (fun c parts =>
    if c = ',' then [] :: parts
    else match parts with
      | [] => [[c]]
      | p :: ps => (c :: p) :: ps) [[]]

/-- The value of a digit in some base up to 16. -/
def digitValue (base : Nat) (c : Char) : Option Nat :=
  let v := if '0' ≤ c ∧ c ≤ '9' then c.toNat - 48
    else if 'a' ≤ c ∧ c ≤ 'f' then c.toNat - 87
    else if 'A' ≤ c ∧ c ≤ 'F' then c.toNat - 55
    else base
  if v < base then some v else none

/-- The digits of a number, at least one. -/
def parseDigits (base : Nat) (cs : List Char) : Option Nat :=
  if cs = [] then none
  else cs.foldl (fun v c => v.bind fun n => (digitValue base c).map fun k => n * base + k) (some 0)

/-- A decimal number, or a hexadecimal one after `0x` (R93). -/
def parseNumber (cs : List Char) : Option Nat :=
  match cs with
  | '0' :: 'x' :: ds => parseDigits 16 ds
  | ds => parseDigits 10 ds

/-- The operands of a line, its comment taken off (R93). -/
def parseOperands (cs : List Char) : Option (List Nat) :=
  let text := trimBlanks (cs.takeWhile (· ≠ ';'))
  if text = [] then some []
  else (splitCommas text).mapM fun part => parseNumber (trimBlanks part)

/-- A quoted text, with nothing but a comment after it (R94). -/
def parseQuoted (cs : List Char) : Option (List Char) :=
  match cs.dropWhile isBlank with
  | [] => none
  | q :: rest =>
    let after := rest.dropWhile fun c => c.toNat ≠ 34
    if q.toNat = 34 ∧ after ≠ [] ∧ trimBlanks ((after.drop 1).takeWhile (· ≠ ';')) = []
    then some (rest.takeWhile fun c => c.toNat ≠ 34) else none

/-- The line a mnemonic and its numbers spell (R93, R94). -/
def numericLine (m : List Char) (ops : List Nat) : Except AsmError AsmLine :=
  let known := [['N','O','P'], ['R','E','S','E','T'], ['S','U','M'], ['G','E','T','B','S'],
    ['G','E','T','S','Z'], ['S','T','A','T','U','S'], ['R','D','D','I','G','E','S','T'],
    ['R','D','D','I','G'], ['W','R','I','T','E','B'], ['W','R','I','T','E'],
    ['.','w','o','r','d'], ['W','R','I','T','E','B','Y','T','E','S']]
  match known.findIdx? (· = m), ops with
  | some 0, [] => .ok .nop
  | some 1, [] => .ok .reset
  | some 2, [] => .ok .sum
  | some 3, [] => .ok .getbs
  | some 4, [] => .ok .getsz
  | some 5, [] => .ok .status
  | some 6, [] => .ok .rddigest
  | some 7, [i] => .ok (.rddig i)
  | some 8, [b] => .ok (.writeb b)
  | some 9, [nb, d] => .ok (.write nb d)
  | some 10, [cw, dw] => .ok (.raw cw dw)
  | some 11, bs => .ok (.writebytes bs)
  | none, _ => .error .unknownMnemonic
  | some _, _ => .error .badOperands

/-- One line of text (R93): the mnemonic first, the operands after it, a comment from `;` on; none for a line
that holds no command. -/
def parseLine (line : List Char) : Except AsmError (Option AsmLine) :=
  let cs := line.dropWhile isBlank
  let ends := fun c => isBlank c || c = ';'
  let m := cs.takeWhile fun c => !ends c
  let rest := cs.dropWhile fun c => !ends c
  if m = [] then .ok none
  else if m = ['W','R','I','T','E','S'] then
    match parseQuoted rest with
    | some t => .ok (some (.writes t))
    | none => .error .badOperands
  else if m = ['H','A','S','H'] then
    match parseQuoted rest with
    | some t => .ok (some (.hash t))
    | none => .error .badOperands
  else
    match parseOperands rest with
    | some ops => (numericLine m ops).map some
    | none => .error .badOperands

/-- The words of one line of text; none for a line that holds no command. -/
def assembleText (line : List Char) : Except AsmError (List (Word × Word)) :=
  (parseLine line).bind fun l =>
    match l with
    | none => .ok []
    | some a => assemble a

/-- What a pair of words disassembles to: a command with its fields, or the raw words with the cause (R95). -/
inductive Listing where
  | command (i : Instr)
  | illegal (cw dw : Word) (c : Cause)
  deriving DecidableEq, Repr

/-- Disassembly (R95). -/
def disassemble (cw dw : Word) : Listing :=
  match decode cw dw with
  | .ok i => .command i
  | .error c => .illegal cw dw c

/-- The line of assembly a listing shows (R93, R95). A WRITE shows its data word as it came, the lanes at NB
and above included: the model's choice, as R95 does not say what stands there (log 24). Assembled again, those
lanes are 0 (R93). -/
def listingLine : Listing → AsmLine
  | .command .nop => .nop
  | .command .reset => .reset
  | .command (.write nb dw) => .write nb.toNat dw.toNat
  | .command .sum => .sum
  | .command (.rddig idx) => .rddig idx.toNat
  | .command .getbs => .getbs
  | .command .getsz => .getsz
  | .command .status => .status
  | .illegal cw dw _ => .raw cw.toNat dw.toNat

/-- A hexadecimal digit. -/
def hexDigit (n : Nat) : Char :=
  ['0','1','2','3','4','5','6','7','8','9','a','b','c','d','e','f'].getD n '0'

/-- A word as `0x` and eight hexadecimal digits. -/
def hexWord (w : Word) : List Char :=
  '0' :: 'x' :: (List.range 8).map fun k => hexDigit (w.toNat / 16 ^ (7 - k) % 16)

/-- The text of a listing (R95). The spacing, the hexadecimal form of the numbers, and the data word of a WRITE
printed as it came, lanes at NB and above included, are the model's choice (log 24). -/
def listingText : Listing → List Char
  | .command .nop => ['N','O','P']
  | .command .reset => ['R','E','S','E','T']
  | .command (.write nb dw) =>
    ['W','R','I','T','E',' '] ++ [hexDigit nb.toNat] ++ [',',' '] ++ hexWord dw
  | .command .sum => ['S','U','M']
  | .command (.rddig idx) => ['R','D','D','I','G',' '] ++ [hexDigit idx.toNat]
  | .command .getbs => ['G','E','T','B','S']
  | .command .getsz => ['G','E','T','S','Z']
  | .command .status => ['S','T','A','T','U','S']
  | .illegal cw dw c =>
    ['.','w','o','r','d',' '] ++ hexWord cw ++ [',',' '] ++ hexWord dw ++
      [' ',';',' ','i','l','l','e','g','a','l',' ','E','C','O','D','E','='] ++
      [hexDigit (causeCode c).toNat]

end Sys2Proof.Machine
end

