-- ==== Sys2Proof/Machine/MessageDigest.lean ====
section
/-! DEFINITION. The digest function GOST(SBOX, m) on whole messages (44_streaming.md R177), from the message
alone: no State, no buffer, no counter. The engine's commands are claimed to compute it. -/

namespace Sys2Proof.Machine

/-- Block n of a message as the step takes it, `rev_n = Reverse(m[32n .. 32n+32])` (R51); past the last full
block, the tail padded with zeros (R166). -/
def messageBlock (m : List Byte) (n : Nat) : Block :=
  reverseBlock (padBlock ((m.drop (32 * n)).take 32))

/-- The chaining value after the first n blocks (R161). -/
def messageChain (enc : Encrypt) (m : List Byte) : Nat → Block
  | 0 => zeroBlock
  | n + 1 => compress enc (messageChain enc m n) (messageBlock m n)

/-- The sum of the first n blocks as little-endian integers (R51, R162). -/
def messageSum (m : List Byte) : Nat → Nat
  | 0 => 0
  | n + 1 => messageSum m n + leInt ((m.drop (32 * n)).take 32)

/-- How many blocks of a message go through the step: the full ones, and the tail if there is one (R166,
R174). -/
def messageBlocks (m : List Byte) : Nat := (m.length + 31) / 32

/-- GOST(SBOX, m) (R177): every block, then the length block and the checksum block, the result reversed
(R166 to R169). -/
def gostDigest (enc : Encrypt) (m : List Byte) : Block :=
  let h := messageChain enc m (messageBlocks m)
  let h' := compress enc h (beBytes 32 (8 * m.length % 2 ^ 64))
  reverseBlock (compress enc h' (beBytes 32 (messageSum m (messageBlocks m) % 2 ^ 256)))

end Sys2Proof.Machine
end

