-- ==== Sys2Proof/Safety.lean ====
section
/-! DEFINITION. The terms claims are stated in: the invariant of the engine, runs of commands, what happens at
the command port in a run of clock edges, and when two states hold the same engine. -/

namespace Sys2Proof.Machine

/-- What holds at every edge of a run from reset: R26, R30, and that calls are left and cph_req is up only
while a command is in flight (R57, R145). -/
structure Inv (s : State) : Prop where
  /-- `|B| < 32` (R26). -/
  buffer : s.b.length < 32
  /-- `L mod 256 = 0` (R26). -/
  counter : s.l.toNat % 256 = 0
  /-- ECODE = 0 exactly when ERR = 0 (R30). -/
  cause : s.ecode = 0#2 ↔ s.err = false
  /-- No Step's list of unanswered calls is empty. -/
  calls : [] ∉ s.cphTodo
  /-- No call is left and none requested unless a command is in flight without its response. -/
  quiet : (∀ cw n, s.phase ≠ .busy cw n) → s.cphTodo = [] ∧ s.cphReq = false
  /-- A request is one of the calls left. -/
  request : s.cphReq = true → s.cphTodo ≠ []

/-- Two states with the same engine: every element of R42, the response word, SBOX, and the model's record of
free values. Not compared: the handshake, the cipher port, and what drives the pins. -/
structure SameEngine (s t : State) : Prop where
  h : s.h = t.h
  l : s.l = t.l
  sigma : s.sigma = t.sigma
  b : s.b = t.b
  d : s.d = t.d
  dvalid : s.dvalid = t.dvalid
  err : s.err = t.err
  ecode : s.ecode = t.ecode
  lovf : s.lovf = t.lovf
  rspWord : s.rspWord = t.rspWord
  sbox : s.sbox = t.sbox
  sboxMoved : s.sboxMoved = t.sboxMoved
  free : s.free = t.free

/-- Commands one after the other, each a command word and a data word (R55, R58). -/
def runCommands : List (Word × Word) → State → Host.Outcome State Fault Refusal
  | [], s => .next s
  | c :: cs, s =>
    match transact c.1 c.2 s with
    | .next t => runCommands cs t
    | .fault r => .fault r
    | .refused r => .refused r

/-- The message bytes a command appends, and the message it starts again from nothing. -/
def messageAfter (m : List Byte) (c : Word × Word) : List Byte :=
  match decode c.1 c.2 with
  | .ok .reset => []
  | .ok (.write nb dw) => m ++ dataBytes nb dw
  | _ => m

/-- The bytes written since the last RESET, or since the start (R177, R240). -/
def messageOf (cs : List (Word × Word)) : List Byte := cs.foldl messageAfter []

/-- Whether a command word is illegal (R88). -/
def isIllegal (c : Word × Word) : Bool :=
  match decode c.1 c.2 with
  | .ok _ => false
  | .error _ => true

/-- Whether a command is RESET. -/
def isReset (c : Word × Word) : Bool := decide (decode c.1 c.2 = .ok .reset)

/-- Whether an illegal command came since the last RESET, or since the start (R240). -/
def illegalSince (cs : List (Word × Word)) : Bool :=
  cs.foldl (fun bad c => if isReset c then false else bad || isIllegal c) false

/-- What happens to the engine at an edge, seen at its ports: a command transfers, or rst is high. -/
inductive Event where
  | command (cw dw : Word)
  | hardReset
  deriving DecidableEq, Repr

/-- The event of the next edge, if any (R57, R209). -/
def nextEvent (s : State) : List Event :=
  let p := nextPins s
  if p.rst then [.hardReset]
  else if cmdReady p s && p.cmdValid then [.command p.cmdWord p.cmdData]
  else []

/-- n steps, stopping at the first that does not answer a next state. -/
def runEdges : Nat → State → Host.Outcome State Fault Refusal
  | 0, s => .next s
  | n + 1, s =>
    match step s with
    | .next t => runEdges n t
    | .fault r => .fault r
    | .refused r => .refused r

/-- The events of the next n edges. -/
def eventsOf : Nat → State → List Event
  | 0, _ => []
  | n + 1, s =>
    match step s with
    | .next t => nextEvent s ++ eventsOf n t
    | _ => []

/-- The response that transfers at the next edge, if any (R57). -/
def nextDelivery (s : State) : List Word :=
  match rspOffered (nextPins s) s with
  | some w => if (nextPins s).rspReady then [w] else []
  | none => []

/-- The responses that transfer in the next n edges, in order. -/
def deliveredOf : Nat → State → List Word
  | 0, _ => []
  | n + 1, s =>
    match step s with
    | .next t => nextDelivery s ++ deliveredOf n t
    | _ => []

/-- An event as one transition: the transaction of R55, or the reset state of R42 (R230). -/
def applyEvent (e : Event) (s : State) : Host.Outcome State Fault Refusal :=
  match e with
  | .command cw dw => transact cw dw s
  | .hardReset => .next { clearEngine s with rspWord := 0#32 }

/-- Events one after the other. -/
def applyEvents : List Event → State → Host.Outcome State Fault Refusal
  | [], s => .next s
  | e :: es, s =>
    match applyEvent e s with
    | .next t => applyEvents es t
    | .fault r => .fault r
    | .refused r => .refused r

/-- The responses the commands among these events are given, in order (R90). -/
def responsesOf : List Event → State → List Word
  | [], _ => []
  | e :: es, s =>
    match applyEvent e s with
    | .next t => (match e with | .command _ _ => [t.rspWord] | .hardReset => []) ++ responsesOf es t
    | _ => []

/-- The response of the command in flight, if there is one. -/
def pending (s : State) : List Word := if s.phase = .idle then [] else [s.rspWord]

/-- SBOX is steady over the next n edges (R236). -/
def sboxSteady (n : Nat) (s : State) : Prop := ∀ p ∈ s.inputs.take n, p.sbox = none

/-- rst is low over the next n edges. -/
def noReset (n : Nat) (s : State) : Prop := ∀ p ∈ s.inputs.take n, p.rst = false

/-- The value the cipher owes for the call on its port (R145). -/
def answerOwed (s : State) : BitVec 64 :=
  match currentCall s with
  | some c => laneWord 64 (s.encrypt c.key c.pin).toList
  | none => 0#64

/-- The pins that a prompt cipher and a willing host drive: every request answered rightly at once, every
response taken, an offered command held, rst low and SBOX steady (R237, R243). -/
def servingPins (s : State) : Pins :=
  { cmdValid := s.held.isSome
    cmdWord := (s.held.getD (0#32, 0#32)).1
    cmdData := (s.held.getD (0#32, 0#32)).2
    rspReady := true
    cphAck := s.cphReq
    cphOut := answerOwed s }

/-- n edges, each with the pins a prompt cipher and a willing host drive then. -/
def servedRun : Nat → State → Host.Outcome State Fault Refusal
  | 0, s => .next s
  | n + 1, s =>
    match step { s with inputs := [servingPins s] } with
    | .next t => servedRun n t
    | .fault r => .fault r
    | .refused r => .refused r

/-- How many cipher calls of the command in flight are not answered. -/
def callsLeft (s : State) : Nat := (s.cphTodo.map List.length).sum

end Sys2Proof.Machine
end

