-- ==== Sys2Proof/Certificates/Slice0/Obligations.lean ====
section
/-! DEFINITION. The statements about the engine, each with the rule of spec/ it formalises or rests on. A rule
named in a docstring is stated whole unless the docstring says which clause. -/

open Sys2Proof Sys2Proof.Machine

/-! ### Encoding -/

/-- The words of every family as 30_encoding.md R87 writes them out, with any data word. -/
def Obligations.DecodeWordsWrittenOut : Prop :=
  ∀ dw : Word,
    decode 0x00000000#32 dw = .ok .nop ∧ decode 0x00000001#32 dw = .ok .reset ∧
    decode 0x00000002#32 dw = .ok (.write 0#3 dw) ∧ decode 0x00000042#32 dw = .ok (.write 4#3 dw) ∧
    decode 0x00000003#32 dw = .ok .sum ∧ decode 0x00000104#32 dw = .ok (.rddig 1#3) ∧
    decode 0x00000704#32 dw = .ok (.rddig 7#3) ∧ decode 0x00000005#32 dw = .ok .getbs ∧
    decode 0x00000006#32 dw = .ok .getsz ∧ decode 0x00000007#32 dw = .ok .status

/-- Decoding the words of a well-formed command gives it back, with every operand (R80, R85, R87). -/
def Obligations.DecodeEncodeRoundTrip : Prop :=
  ∀ i : Instr, i.wellFormed = true → decode (encode i).1 (encode i).2 = .ok i

/-- A word that decodes is the word its command is encoded in, the command is well formed, and a WRITE carries
the data word it came with: no two legal words mean the same command (R80 to R85). -/
def Obligations.LegalWordIsItsEncoding : Prop :=
  ∀ (cw dw : Word) (i : Instr), decode cw dw = .ok i →
    i.wellFormed = true ∧ (encode i).1 = cw ∧ ∀ nb d, i = .write nb d → d = dw

/-- Each row's legal words are exactly those that match under the row's mask, NB ≤ 4 besides for WRITE; they
are nineteen, written out (R87's table of words and its count). -/
def Obligations.LegalWordsOfEachRow : Prop :=
  ∀ cw dw : Word,
    (decode cw dw = .ok .nop ↔ cw &&& 0xFFFFFFFF#32 = 0x00000000#32) ∧
    (decode cw dw = .ok .reset ↔ cw &&& 0xFFFFFFFF#32 = 0x00000001#32) ∧
    ((∃ nb d, decode cw dw = .ok (.write nb d)) ↔
      cw &&& 0xFFFFFF8F#32 = 0x00000002#32 ∧ cw.extractLsb' 4 3 ≤ 4#3) ∧
    (decode cw dw = .ok .sum ↔ cw &&& 0xFFFFFFFF#32 = 0x00000003#32) ∧
    ((∃ idx, decode cw dw = .ok (.rddig idx)) ↔ cw &&& 0xFFFFF8FF#32 = 0x00000004#32) ∧
    (decode cw dw = .ok .getbs ↔ cw &&& 0xFFFFFFFF#32 = 0x00000005#32) ∧
    (decode cw dw = .ok .getsz ↔ cw &&& 0xFFFFFFFF#32 = 0x00000006#32) ∧
    (decode cw dw = .ok .status ↔ cw &&& 0xFFFFFFFF#32 = 0x00000007#32) ∧
    ((∃ i, decode cw dw = .ok i) ↔
      cw ∈ [0x00000000#32, 0x00000001#32, 0x00000002#32, 0x00000012#32, 0x00000022#32,
        0x00000032#32, 0x00000042#32, 0x00000003#32, 0x00000004#32, 0x00000104#32,
        0x00000204#32, 0x00000304#32, 0x00000404#32, 0x00000504#32, 0x00000604#32,
        0x00000704#32, 0x00000005#32, 0x00000006#32, 0x00000007#32])

/-- R203: with more than one fault in a word the cause is the first in the order BAD_OP, BAD_RSVD, BAD_NB; and
its three examples. -/
def Obligations.FirstFaultDecidesCause : Prop :=
  (∀ cw dw : Word,
    (8 ≤ (cw &&& 0x0000000F#32).toNat → decode cw dw = .error .badOp) ∧
    ((cw &&& 0x0000000F#32).toNat < 8 →
      cw &&& reservedMask (cw.extractLsb' 0 4) ≠ 0#32 → decode cw dw = .error .badRsvd) ∧
    (cw.extractLsb' 0 4 = 2#4 → cw &&& reservedMask 2#4 = 0#32 → 4#3 < cw.extractLsb' 4 3 →
      decode cw dw = .error .badNb)) ∧
  (∀ dw : Word, decode 0x0000000F#32 dw = .error .badOp ∧
    decode 0x00000852#32 dw = .error .badRsvd ∧ decode 0x00000072#32 dw = .error .badNb)

/-- R202: the value ECODE records for each cause, on the first command after a reset; 0 for a legal one. -/
def Obligations.CauseCodesRecorded : Prop :=
  ∀ cw dw : Word, ∃ t, transact cw dw State.reset = .next t ∧
    (t.ecode = 1#2 ↔ 8 ≤ (cw &&& 0x0000000F#32).toNat) ∧
    (t.ecode = 2#2 ↔ (cw &&& 0x0000000F#32).toNat < 8 ∧
      cw &&& reservedMask (cw.extractLsb' 0 4) ≠ 0#32) ∧
    (t.ecode = 3#2 ↔ cw &&& 0xFFFFFF8F#32 = 0x00000002#32 ∧ 5 ≤ (cw.extractLsb' 4 3).toNat) ∧
    (t.ecode = 0#2 ↔ ∃ i, decode cw dw = .ok i)

/-- R86: for a command other than WRITE the data word may hold any value; the same for an illegal word (R201,
the clause on the data word). -/
def Obligations.OnlyWriteReadsTheDataWord : Prop :=
  ∀ (cw dw dw' : Word) (s : State), (∀ nb, decode cw dw ≠ .ok (.write nb dw)) →
    transact cw dw s = transact cw dw' s

/-- R85, the clause on lanes k ≥ NB: they may hold any value. -/
def Obligations.WriteIgnoresUnusedLanes : Prop :=
  ∀ (nb : BitVec 3) (dw dw' : Word) (s : State),
    (∀ k, k < nb.toNat → dataByte dw k = dataByte dw' k) →
    exec (.write nb dw) s = exec (.write nb dw') s

/-- Disassembling a pair of words and assembling the line gives the command word back, and the data word of an
illegal word and of a WRITE in the lanes it reads; the lanes a WRITE does not read, and the data word of every
other command, come back as 0 (R93, R95). What the listing shows there is the model's choice (log 24). -/
def Obligations.AssembleDisassembleRoundTrip : Prop :=
  ∀ cw dw : Word, ∃ d : Word,
    assemble (listingLine (disassemble cw dw)) = .ok [(cw, d)] ∧
    (∀ c, disassemble cw dw = .illegal cw dw c → d = dw) ∧
    (∀ nb, disassemble cw dw = .command (.write nb dw) →
      ∀ k, k < 4 → dataByte d k = if k < nb.toNat then dataByte dw k else 0#8) ∧
    (∀ i, disassemble cw dw = .command i → (∀ nb w, i ≠ .write nb w) → d = 0#32)

/-! ### The commands -/

/-- R200, and R55's clause that Exec is total: every pair of words runs to a next state. -/
def Obligations.EveryCommandCompletes : Prop :=
  ∀ (cw dw : Word) (s : State), ∃ t, transact cw dw s = .next t

/-- R90: the one response word of every command, legal or illegal. -/
def Obligations.ResponseOfEveryCommand : Prop :=
  ∀ (cw dw : Word) (s : State), ∃ t, transact cw dw s = .next t ∧
    match decode cw dw with
    | .ok .nop => t.rspWord = statusWord s
    | .ok .reset => t.rspWord = 0x00000000#32
    | .ok (.write nb _) => t.rspWord.toNat = nb.toNat
    | .ok .sum => t.rspWord = statusWord t ∧ t.rspWord.getLsbD 0 = true
    | .ok (.rddig i) => t.rspWord = digestWord s.d i
    | .ok .getbs => t.rspWord = 0x00000020#32
    | .ok .getsz => t.rspWord = 0x00000020#32
    | .ok .status => t.rspWord = statusWord s
    | .error _ => t.rspWord = statusWord t ∧ t.rspWord.getLsbD 1 = true

/-- R180: NOP is the word 0, answers STATUS, writes nothing else, is the same as STATUS, and answers 0 after
reset. -/
def Obligations.NopAnswersStatusOnly : Prop :=
  (∀ cw dw : Word, decode cw dw = .ok .nop ↔ cw = 0x00000000#32) ∧
  (∀ s : State, exec .nop s = .next { s with rspWord := statusWord s } ∧
    exec .nop s = exec .status s) ∧
  ∃ t, exec .nop State.reset = .next t ∧ t.rspWord = 0x00000000#32

/-- R181: STATUS is the word 7 and answers DVALID, ERR, LOVF, BLEN, ECODE in their places, the reserved bits 0
(the layout of R32), and writes nothing; with its examples. -/
def Obligations.StatusReportsFields : Prop :=
  (∀ cw dw : Word, decode cw dw = .ok .status ↔ cw = 0x00000007#32) ∧
  (∀ s : State, s.b.length < 32 → ∃ w : Word, exec .status s = .next { s with rspWord := w } ∧
    w.getLsbD 0 = s.dvalid ∧ w.getLsbD 1 = s.err ∧ w.getLsbD 2 = s.lovf ∧ w.getLsbD 3 = false ∧
    (w.extractLsb' 4 5).toNat = s.b.length ∧ w.extractLsb' 9 3 = 0#3 ∧
    w.extractLsb' 12 2 = s.ecode ∧ w.extractLsb' 14 18 = 0#18) ∧
  (∃ t, runCommands [(0x00000001#32, 0#32), (0x00000032#32, 0x00636261#32),
      (0x00000007#32, 0#32)] State.reset = .next t ∧ t.rspWord = 0x00000030#32) ∧
  (∃ t, runCommands [(0x00000001#32, 0#32), (0x00000032#32, 0x00636261#32),
      (0x00000003#32, 0#32), (0x00000007#32, 0#32)] State.reset = .next t ∧
    t.rspWord = 0x00000031#32)

/-- R91: RDDIG i answers `D[4i] | D[4i+1] << 8 | D[4i+2] << 16 | D[4i+3] << 24` and writes nothing else, and
the lanes of words 0..7 in order are the 32 digest bytes. R182's clause that DVALID is not tested: no
hypothesis on it. -/
def Obligations.RddigReadsDigestInOrder : Prop :=
  (∀ (idx : BitVec 3) (s : State), ∃ w : Word,
    exec (.rddig idx) s = .next { s with rspWord := w } ∧
    ∀ k (_ : k < 4), dataByte w k = s.d[4 * idx.toNat + k]'(by have := idx.isLt; omega)) ∧
  ∀ d : Block, ((List.range 8).flatMap fun i =>
    (List.range 4).map (dataByte (digestWord d (BitVec.ofNat 3 i)))) = d.toList

/-- R172 and R173: GETBS is the word 5, GETSZ the word 6; both answer 32 and write nothing else. -/
def Obligations.SizeQueriesAnswerThirtyTwo : Prop :=
  ∀ (cw dw : Word) (s : State),
    (decode cw dw = .ok .getbs ↔ cw = 0x00000005#32) ∧
    (decode cw dw = .ok .getsz ↔ cw = 0x00000006#32) ∧
    exec .getbs s = .next { s with rspWord := 0x00000020#32 } ∧
    exec .getsz s = .next { s with rspWord := 0x00000020#32 }

/-- R171: RESET is the word 1; it writes the reset value of every element of R42 and answers 0, SBOX is not
changed, two RESETs equal one, no other command clears ERR or LOVF, and its example. (That the model's
record of an SBOX move ends here is log 14.) -/
def Obligations.ResetCommandRestores : Prop :=
  (∀ cw dw : Word, decode cw dw = .ok .reset ↔ cw = 0x00000001#32) ∧
  (∀ s : State, ∃ t, exec .reset s = .next t ∧ t = { s with
      h := zeroBlock, l := 0#64, sigma := 0#256, b := [], d := zeroBlock, dvalid := false,
      err := false, ecode := 0#2, lovf := false, sboxMoved := false, rspWord := 0x00000000#32 } ∧
    exec .reset t = .next t) ∧
  (∀ (cw dw : Word) (s t : State), transact cw dw s = .next t →
    (s.err = true ∧ t.err = false ∨ s.lovf = true ∧ t.lovf = false) → cw = 0x00000001#32) ∧
  ∃ t u, transact 0x00000008#32 0#32 State.reset = .next t ∧ t.rspWord = 0x00001002#32 ∧
    exec .reset t = .next u ∧ u.rspWord = 0x00000000#32

/-- WRITE whose bytes fill no block: they go at the end of B, DVALID is cleared unless there are none, the
response is NB, and nothing else changes (R164; R85 for the bytes). -/
def Obligations.WriteBuffersBytes : Prop :=
  ∀ (nb : BitVec 3) (dw : Word) (s : State), nb ≤ 4#3 → s.b.length + nb.toNat < 32 →
    exec (.write nb dw) s = .next { s with
      b := s.b ++ (List.range nb.toNat).map fun k => dw.extractLsb' (8 * k) 8
      dvalid := if nb = 0#3 then s.dvalid else false
      rspWord := nb.setWidth 32 }

/-- WRITE whose bytes fill a block: the first 32 pending bytes are absorbed as the reversed block, whose
integer is their little-endian one (R51), with the carry out of Σ dropped (R162) and that out of L put in LOVF
(R163); the other bytes stay pending; nothing else changes but the cipher port's work (R161, R164). -/
def Obligations.WriteAbsorbsFullBlock : Prop :=
  ∀ (nb : BitVec 3) (dw : Word) (s : State), nb ≤ 4#3 → s.b.length < 32 →
    32 ≤ s.b.length + nb.toNat →
    ∃ bytes, bytes = s.b ++ (List.range nb.toNat).map (fun k => dw.extractLsb' (8 * k) 8) ∧
    exec (.write nb dw) s = .next { s with
      h := compress s.encrypt s.h (reverseBlock (padBlock (bytes.take 32)))
      sigma := BitVec.ofNat 256 (s.sigma.toNat + leInt (bytes.take 32))
      l := BitVec.ofNat 64 (s.l.toNat + 256)
      lovf := s.lovf || decide (2 ^ 64 ≤ s.l.toNat + 256)
      b := bytes.drop 32
      dvalid := false
      rspWord := nb.setWidth 32
      cphTodo := s.cphTodo ++
        [stepCalls s.h (reverseBlock (padBlock (bytes.take 32)))] }

/-- WRITE with NB = 0 changes nothing but the response, in every state (R82's clause on NB = 0). -/
def Obligations.WriteOfNothing : Prop :=
  ∀ (dw : Word) (s : State), exec (.write 0#3 dw) s = .next { s with rspWord := 0x00000000#32 }

/-- The model's choice (log 16): a WRITE whose NB no legal word spells takes IllegalCommand(3), as decode does
on its word (R88, R201). -/
def Obligations.WriteBeyondFourBytesIsIllegal : Prop :=
  ∀ (nb : BitVec 3) (dw : Word) (s : State), 4#3 < nb → ∃ w : Word,
    exec (.write nb dw) s = .next { s with
      ecode := if s.err then s.ecode else 3#2, err := true, rspWord := w } ∧
    transact (encode (.write nb dw)).1 dw s = exec (.write nb dw) s

/-- R64: a WRITE of NB bytes is NB WRITEs of one byte, the k-th carrying byte k in lane 0; only the response
differs. -/
def Obligations.WriteIsItsByteWrites : Prop :=
  ∀ (nb : BitVec 3) (dw : Word) (s : State), nb ≤ 4#3 → ∃ t u,
    exec (.write nb dw) s = .next t ∧
    runCommands ((List.range nb.toNat).map fun k =>
      (0x00000012#32, (dataByte dw k).setWidth 32)) s = .next u ∧
    u = { t with rspWord := u.rspWord } ∧ t.rspWord.toNat = nb.toNat ∧
    (nb ≠ 0#3 → u.rspWord = 0x00000001#32)

/-- SUM, SBOX not moved since the last reset: D is the reverse of the chaining value after the tail block (if
B is not empty), the length block of the 64-bit bit count, and the checksum block; DVALID is set; the response
is STATUS; the calls of those two or three steps, with their keys and input blocks, go on the cipher port in that
order (R145; log 9); nothing else changes (R165 to R169). On states with the invariant of R26. -/
def Obligations.SumWritesDigest : Prop :=
  ∀ s : State, s.b.length < 32 → s.l.toNat % 256 = 0 → s.sboxMoved = false →
    ∃ tail len sum hTail hLen : Block,
      tail = reverseBlock (padBlock s.b) ∧
      len = beBytes 32 (s.l.toNat + 8 * s.b.length) ∧
      sum = beBytes 32 ((s.sigma.toNat + leInt s.b) % 2 ^ 256) ∧
      hTail = (if s.b = [] then s.h else compress s.encrypt s.h tail) ∧
      hLen = compress s.encrypt hTail len ∧
      exec .sum s = .next { s with
        d := reverseBlock (compress s.encrypt hLen sum)
        dvalid := true
        rspWord := statusWord { s with dvalid := true }
        cphTodo := s.cphTodo ++ ((if s.b = [] then [] else [stepCalls s.h tail]) ++
          [stepCalls hTail len, stepCalls hLen sum]) }

/-- The model's reading of R236 and U4 (log 14, log 15). After SBOX moved, SUM runs as ever and D takes a free
value, whatever it is. SBOX is sampled before anything else an edge does: a new value at an edge with rst low
sets the record and frees D of a SUM in flight; the same value changes nothing; rst clears the record. The value
sampled is the one cph_sbox carries (R145, its clause on cph_sbox). An edge that takes a command runs it on the
sampled state (StepRunsDecodedCommand); the clauses on `step` are for every other edge. -/
def Obligations.SboxMoveFreesDigests : Prop :=
  (∀ s : State, s.sboxMoved = true →
    exec .sum s = .next { s with
      d := Config.freeDigest s.free
      free := s.free + 1
      dvalid := true
      rspWord := statusWord { s with dvalid := true }
      cphTodo := s.cphTodo ++ (finalize s).calls }) ∧
  ∀ (s : State) (p : Pins) (rest : List Pins), s.inputs = p :: rest →
    (∀ t, step s = .next t → cphSbox p s = t.sbox) ∧
    (∀ x, p.sbox = some x → cphSbox p s = x) ∧ (p.sbox = none → cphSbox p s = s.sbox) ∧
    (∀ x, p.sbox = some x → x ≠ s.sbox →
      (∀ n, s.phase = .busy 0x00000003#32 n → driveSbox p s = { s with
        sbox := x, sboxMoved := true, d := Config.freeDigest s.free, free := s.free + 1 }) ∧
      ((∀ n, s.phase ≠ .busy 0x00000003#32 n) →
        driveSbox p s = { s with sbox := x, sboxMoved := true })) ∧
    (p.sbox = none ∨ p.sbox = some s.sbox → driveSbox p s = s) ∧
    ((∀ c, s.held = some c → offered p = some c) →
      (p.rst = false → s.phase ≠ .idle ∨ p.cmdValid = false →
        (∀ x, p.sbox = some x → x ≠ s.sbox → ∃ t, step s = .next t ∧ t.sboxMoved = true) ∧
        ∀ t, step s = .next t → t.sboxMoved = (driveSbox p s).sboxMoved ∧
          t.d = (driveSbox p s).d ∧ t.free = (driveSbox p s).free) ∧
      (p.rst = true → ∃ t, step s = .next t ∧ t.sboxMoved = false ∧ t.free = s.free))

/-- R170: SUM leaves H, L, Σ, B, LOVF, ERR and ECODE; SUMs with no WRITE of bytes and no RESET between them
write the same D; a WRITE after a SUM goes on as if the SUM had not run. SBOX as R236 requires it. -/
def Obligations.SumDoesNotChangeHashState : Prop :=
  ∀ s : State, s.sboxMoved = false → ∃ t, exec .sum s = .next t ∧
    t.h = s.h ∧ t.l = s.l ∧ t.sigma = s.sigma ∧ t.b = s.b ∧ t.lovf = s.lovf ∧
    t.err = s.err ∧ t.ecode = s.ecode ∧
    (∀ (cs : List (Word × Word)) (u : State),
      (∀ c ∈ cs, isReset c = false ∧ ∀ nb d, decode c.1 c.2 = .ok (.write nb d) → nb = 0#3) →
      runCommands cs t = .next u → ∃ v, exec .sum u = .next v ∧ v.d = t.d) ∧
    ∀ (nb : BitVec 3) (dw : Word), nb ≤ 4#3 → ∃ u v, exec (.write nb dw) t = .next u ∧
      exec (.write nb dw) s = .next v ∧
      u.h = v.h ∧ u.l = v.l ∧ u.sigma = v.sigma ∧ u.b = v.b ∧ u.lovf = v.lovf

/-- R175: with L a multiple of 256 and fewer than 32 bytes pending, the length SUM forms does not wrap, is at
most 2^64 − 8, and LOVF is not set by it. -/
def Obligations.SumLengthDoesNotWrap : Prop :=
  ∀ s : State, s.b.length < 32 → s.l.toNat % 256 = 0 →
    s.l.toNat ≤ 2 ^ 64 - 256 ∧ 8 * s.b.length ≤ 248 ∧
    (finalize s).l.toNat = s.l.toNat + 8 * s.b.length ∧ (finalize s).l.toNat ≤ 2 ^ 64 - 8 ∧
    ∃ t, exec .sum s = .next t ∧ t.lovf = s.lovf

/-- The blocks SUM forms, as bytes and as integers: the padded tail reversed has its zeros in front and the
integer of the pending bytes (R166), the length block has 24 zero bytes and then L' (R167), the checksum block
is Σ' (R168). -/
def Obligations.FinalBlocksLayout : Prop :=
  (∀ bs : List Byte, bs.length < 32 →
    (∀ i (_ : i < 32 - bs.length), (reverseBlock (padBlock bs))[i] = 0#8) ∧
    beInt (reverseBlock (padBlock bs)).toList = leInt bs) ∧
  (∀ l : BitVec 64, (∀ i (_ : i < 24), (lengthBlock l)[i] = 0#8) ∧
    (∀ i (_ : i < 8), (lengthBlock l)[24 + i] = (beBytes 8 l.toNat)[i]) ∧
    beInt (lengthBlock l).toList = l.toNat) ∧
  ∀ sigma : BitVec 256, beInt (checksumBlock sigma).toList = sigma.toNat

/-- R162: the checksum addition subtracts 2^256 exactly when the sum reaches it, which is the sum modulo
2^256. -/
def Obligations.ChecksumDropsOneCarry : Prop :=
  ∀ (sigma : BitVec 256) (m : Block), ∃ v, v = beInt m.toList ∧ v < 2 ^ 256 ∧
    (checksumAdd sigma m).toNat =
      sigma.toNat + v - (if 2 ^ 256 ≤ sigma.toNat + v then 2 ^ 256 else 0) ∧
    (checksumAdd sigma m).toNat = (sigma.toNat + v) % 2 ^ 256

/-- R163: one absorbed block adds 256 to L modulo 2^64 and sets LOVF when that passes 2^64 − 1; on a multiple
of 256 the wrap comes exactly at 2^64 − 256 and leaves 0. -/
def Obligations.CounterWrapSetsLovf : Prop :=
  ∀ (raw : Block) (s : State),
    (absorbBlock raw s).l.toNat = (s.l.toNat + 256) % 2 ^ 64 ∧
    ((absorbBlock raw s).lovf = true ↔ s.lovf = true ∨ 2 ^ 64 ≤ s.l.toNat + 256) ∧
    (s.l.toNat % 256 = 0 →
      (2 ^ 64 ≤ s.l.toNat + 256 ↔ s.l.toNat = 2 ^ 64 - 256) ∧
      (2 ^ 64 ≤ s.l.toNat + 256 → (absorbBlock raw s).l = 0#64))

/-- R201: an illegal word keeps the first cause, sets ERR, answers STATUS with both in it, and writes nothing
else. -/
def Obligations.IllegalCommandEffect : Prop :=
  ∀ (cw dw : Word) (s : State) (c : Cause), decode cw dw = .error c → ∃ w : Word,
    transact cw dw s = .next { s with
      ecode := if s.err then s.ecode else causeCode c, err := true, rspWord := w } ∧
    w = statusWord { s with ecode := if s.err then s.ecode else causeCode c, err := true } ∧
    w.getLsbD 1 = true ∧ w.extractLsb' 12 2 = (if s.err then s.ecode else causeCode c)

/-- R204: ERR and ECODE keep the first cause over any commands but RESET. -/
def Obligations.ErrorIsSticky : Prop :=
  ∀ (cs : List (Word × Word)) (s : State), s.err = true → (∀ c ∈ cs, isReset c = false) →
    ∃ t, runCommands cs s = .next t ∧ t.err = true ∧ t.ecode = s.ecode

/-- R29's clauses that no command tests ERR and that the engine goes on with ERR = 1: a legal command does to
everything but ERR, ECODE and the response what it does with any other ERR and ECODE. -/
def Obligations.ErrorDoesNotStopTheEngine : Prop :=
  ∀ (i : Instr) (s : State) (e : Bool) (c : BitVec 2), i.wellFormed = true → ∃ t u,
    exec i s = .next t ∧ exec i { s with err := e, ecode := c } = .next u ∧
    u = { t with err := u.err, ecode := u.ecode, rspWord := u.rspWord }

/-- R28: what each command, an illegal word and rst do to DVALID (rst with the command hold of R237 kept). -/
def Obligations.DvalidFollowsTheMessage : Prop :=
  (∀ (cw dw : Word) (s : State), ∃ t, transact cw dw s = .next t ∧
    match decode cw dw with
    | .ok .sum => t.dvalid = true
    | .ok .reset => t.dvalid = false
    | .ok (.write nb _) => t.dvalid = (if nb = 0#3 then s.dvalid else false)
    | _ => t.dvalid = s.dvalid) ∧
  ∀ (p : Pins) (s : State), p.rst = true → (∀ c, s.held = some c → offered p = some c) →
    ∃ t, clockEdge p s = .next t ∧ t.dvalid = false

/-- Which commands write which registers (R22, R23, R24, R25, R27, R31): H, L, Σ, B, LOVF only WRITE and
RESET; D only SUM and RESET. -/
def Obligations.WritersOfEachRegister : Prop :=
  ∀ (cw dw : Word) (s : State), ∃ t, transact cw dw s = .next t ∧
    ((∀ nb, decode cw dw ≠ .ok (.write nb dw)) → decode cw dw ≠ .ok .reset →
      t.h = s.h ∧ t.l = s.l ∧ t.sigma = s.sigma ∧ t.b = s.b ∧ t.lovf = s.lovf) ∧
    (decode cw dw ≠ .ok .sum → decode cw dw ≠ .ok .reset → t.d = s.d)

/-- Reading has no side effect and may be repeated: NOP, STATUS, RDDIG, GETBS and GETSZ change the response
only, and a second one gives the same word (R63's clause on reads). -/
def Obligations.ReadsHaveNoSideEffect : Prop :=
  ∀ (i : Instr) (s : State), i ∈ [.nop, .status, .getbs, .getsz] ∨ (∃ idx, i = .rddig idx) →
    ∃ w : Word, exec i s = .next { s with rspWord := w } ∧
      exec i { s with rspWord := w } = .next { s with rspWord := w }

/-! ### Datapath -/

/-- R111 and R112: Reverse and reverse8 byte by byte, both involutions. -/
def Obligations.ReversalsAreInvolutions : Prop :=
  (∀ a : Block, (∀ i (_ : i < 32), (reverseBlock a)[i] = a[31 - i]) ∧
    reverseBlock (reverseBlock a) = a) ∧
  ∀ q : Quarter, (∀ i (_ : i < 8), (reverse8 q)[i] = q[7 - i]) ∧ reverse8 (reverse8 q) = q

/-- R113 and R114: A by bytes, in the limb form `y1⊕y2 ‖ y4 ‖ y3 ‖ y2` with y_k = Y[32 − 8k .. 40 − 8k], its
value on zeros, and its linearity. -/
def Obligations.TransAByBytesAndLimbs : Prop :=
  (∀ y : Block,
    (∀ i (_ : i < 8), (transA y)[i] = y[16 + i] ^^^ y[24 + i]) ∧
    (∀ i (_ : i < 24), (transA y)[8 + i] = y[i]) ∧
    ∀ limb : Nat → List Byte, (∀ k, limb k = (y.toList.drop (32 - 8 * k)).take 8) →
      (transA y).toList =
        List.zipWith (· ^^^ ·) (limb 1) (limb 2) ++ limb 4 ++ limb 3 ++ limb 2) ∧
  transA zeroBlock = zeroBlock ∧
  ∀ a b : Block, transA (xorBlock a b) = xorBlock (transA a) (transA b)

/-- P by rows and columns, its corner cases: it is a bijection, not an involution, fixes bytes 0 and 31 and
moves every other (R115 but for its worked example). -/
def Obligations.PermPTransposes : Prop :=
  (∀ (y : Block) (r c : Nat) (_ : r < 8) (_ : c < 4), (permP y)[4 * r + c] = y[8 * c + r]) ∧
  Function.Bijective permP ∧ (∃ y, permP (permP y) ≠ y) ∧ permP zeroBlock = zeroBlock ∧
  ∀ i (_ : i < 32), (∀ y : Block, (permP y)[i] = y[i]) ↔ i = 0 ∨ i = 31

/-- χ in 16-bit words: the feedback word ω1⊕ω2⊕ω3⊕ω4⊕ω13⊕ω16 with ω_k = Y[32 − 2k .. 34 − 2k], then
ω16 ‖ … ‖ ω2; its linearity and its values on zeros and on ones (R116 but for its worked example). -/
def Obligations.ChiByWords : Prop :=
  (∀ (y : Block) (word : Nat → List Byte),
    (∀ k, word k = (y.toList.drop (32 - 2 * k)).take 2) →
    (chi y).toList =
      List.zipWith (· ^^^ ·) (List.zipWith (· ^^^ ·) (List.zipWith (· ^^^ ·)
        (List.zipWith (· ^^^ ·) (List.zipWith (· ^^^ ·) (word 1) (word 2)) (word 3)) (word 4))
          (word 13)) (word 16) ++ (List.range 15).flatMap fun k => word (16 - k)) ∧
  (∀ a b : Block, chi (xorBlock a b) = xorBlock (chi a) (chi b)) ∧
  chi zeroBlock = zeroBlock ∧
  chi (Vector.replicate 32 0xff#8) =
    Vector.ofFn fun i : Fin 32 => if i.val < 2 then 0x00#8 else 0xff#8

/-- R118: for every block Y, be_int(Reverse(Y)) = le_int(Y). -/
def Obligations.ReverseSwapsIntegerViews : Prop :=
  ∀ y : Block, beInt (reverseBlock y).toList = leInt y.toList

/-- R134: the keys in closed form, U3 with C3 and the others without a constant. -/
def Obligations.KeyScheduleClosedForm : Prop :=
  ∀ h m : Block,
    (keyGen h m)[0] = permP (xorBlock h m) ∧
    (keyGen h m)[1] = permP (xorBlock (transA h) (transA^[2] m)) ∧
    (keyGen h m)[2] = permP (xorBlock (xorBlock (transA (transA h)) constC3) (transA^[4] m)) ∧
    (keyGen h m)[3] =
      permP (xorBlock (transA (xorBlock (transA (transA h)) constC3)) (transA^[6] m))

/-- Round j takes its quarter from H[32 − 8j .. 40 − 8j], encrypts it reversed under the reversed key K_j and
puts the answer, reversed, back in the same place of S (R142, R143, R144). -/
def Obligations.SBlockSlots : Prop :=
  ∀ (enc : Encrypt) (h m : Block) (j : Nat) (_ : 1 ≤ j) (_ : j ≤ 4) (pin : Quarter),
    (∀ k (_ : k < 8), pin[k] = h[32 - 8 * j + (7 - k)]) →
    ∀ k (_ : k < 8), (sBlock enc h m)[32 - 8 * j + k] =
      (enc (reverseBlock ((keyGen h m)[j - 1])) pin)[7 - k]

/-- Step in closed form: as χ is linear, H' = χ^74(S) ⊕ χ^62(M) ⊕ χ^61(H) (derived from R150 and R151: the
twelve, the one and the sixty-one iterations and where the XORs fall). -/
def Obligations.CompressClosedForm : Prop :=
  ∀ (enc : Encrypt) (h m : Block), compress enc h m =
    xorBlock (xorBlock (chiIter 74 (sBlock enc h m)) (chiIter 62 m)) (chiIter 61 h)

/-! ### Streaming -/

/-- R176: what WRITEs leave in H, L, Σ, B and LOVF depends on the bytes they carry, not on how they are
split, and so does the digest a SUM after them writes (SBOX as R236 requires it). -/
def Obligations.SplitOfMessageCannotBeSeen : Prop :=
  ∀ (s : State) (ws ws' : List (BitVec 3 × Word)),
    (∀ w ∈ ws, w.1 ≤ 4#3) → (∀ w ∈ ws', w.1 ≤ 4#3) →
    (ws.flatMap fun w => dataBytes w.1 w.2) = (ws'.flatMap fun w => dataBytes w.1 w.2) →
    ∃ t t', runCommands (ws.map fun w => encode (.write w.1 w.2)) s = .next t ∧
      runCommands (ws'.map fun w => encode (.write w.1 w.2)) s = .next t' ∧
      t.h = t'.h ∧ t.l = t'.l ∧ t.sigma = t'.sigma ∧ t.b = t'.b ∧ t.lovf = t'.lovf ∧
      (s.sboxMoved = false → ∃ u u', exec .sum t = .next u ∧ exec .sum t' = .next u' ∧ u.d = u'.d)

/-- After any commands from reset the hash state is a function of the bytes written since the last RESET: H
and Σ of its full blocks, L = 256 × their number modulo 2^64 (R26), B the rest, LOVF whether L has passed
2^64 − 1; and ERR says whether an illegal word came (R30, R31). -/
def Obligations.HashStateIsOfTheMessage : Prop :=
  ∀ cs : List (Word × Word), ∃ t m n, runCommands cs State.reset = .next t ∧
    m = messageOf cs ∧ n = m.length / 32 ∧
    t.h = messageChain State.reset.encrypt m n ∧ t.l = BitVec.ofNat 64 (256 * n) ∧
    t.sigma = BitVec.ofNat 256 (messageSum m n) ∧ t.b = m.drop (32 * n) ∧
    t.lovf = decide (2 ^ 64 ≤ 256 * n) ∧ t.err = illegalSince cs

/-- R177: RESET, the WRITEs of a message in any split, and SUM leave GOST(SBOX, m) in D, from any state. -/
def Obligations.SumOfMessageIsGost : Prop :=
  ∀ (s : State) (ws : List (BitVec 3 × Word)), (∀ w ∈ ws, w.1 ≤ 4#3) →
    ∃ t, runCommands (encode .reset ::
        ((ws.map fun w => encode (.write w.1 w.2)) ++ [encode .sum])) s = .next t ∧
      t.d = gostDigest s.encrypt (ws.flatMap fun w => dataBytes w.1 w.2) ∧ t.dvalid = true

/-- R240, its last sentence: after any commands from reset, ERR = 0 and DVALID = 1 together mean that D is the
digest of everything written since the last reset, with no illegal command among it. -/
def Obligations.CleanFlagsMeanDigestOfMessage : Prop :=
  ∀ cs : List (Word × Word), ∃ t, runCommands cs State.reset = .next t ∧
    (t.err = false → t.dvalid = true →
      t.d = gostDigest State.reset.encrypt (messageOf cs) ∧ illegalSince cs = false)

/-- The HASH pseudo-instruction (R94) from any state: the lanes of the last eight responses are the digest of
its bytes (R177, R91). -/
def Obligations.HashProgramReadsOutGost : Prop :=
  ∀ (s : State) (m : List Byte),
    ((responsesOf ((hashCommands m).map fun c => Event.command c.1 c.2) s).drop
      (2 + (writeCommands m).length)).flatMap (fun w => (List.range 4).map (dataByte w)) =
    (gostDigest s.encrypt m).toList

/-! ### Ports and reset -/

/-- A step runs the decoded command: where the engine is idle, rst low and the command offered is the one held,
if one was, the edge is exec of the decoded command at the state with its pins taken off the list, after which
the engine is busy with it; an illegal word takes the exception (R55, R57, R201). The model's choices: that the
accepting edge runs the whole transaction (log 1), and that SBOX is sampled before the command (log 14). -/
def Obligations.StepRunsDecodedCommand : Prop :=
  ∀ (s : State) (p : Pins) (rest : List Pins), s.inputs = p :: rest → s.phase = .idle →
    p.rst = false → p.cmdValid = true → (s.held = none ∨ s.held = some (p.cmdWord, p.cmdData)) →
    (∀ i t, decode p.cmdWord p.cmdData = .ok i →
      exec i (driveSbox p { s with inputs := rest }) = .next t →
      step s = .next { t with phase := .busy p.cmdWord 0, held := none }) ∧
    (∀ c, decode p.cmdWord p.cmdData = .error c →
      step s = .next { raiseIllegal c (driveSbox p { s with inputs := rest }) with
        phase := .busy p.cmdWord 0, held := none }) ∧
    (p.sbox = none → driveSbox p { s with inputs := rest } = { s with inputs := rest })

/-- An edge with rst = 1, whatever was in flight, leaves the reset state of R42, no command in flight, no
request on the cipher port; while rst = 1 nothing is offered on any port (R230, R233). The RESET command leaves
the same elements (R232). The model's reading (log 13, DEDUCED): R230 resets at every such edge, R237 and U5
refuse a host that breaks its command hold and have no exception for rst, so the reset is stated with the hold
kept, and a broken hold ends the run at that edge too. -/
def Obligations.HardwareResetAbandonsEverything : Prop :=
  ∀ (s : State) (p : Pins) (rest : List Pins), s.inputs = p :: rest → p.rst = true →
    ((∀ c, s.held = some c → offered p = some c) → ∃ t, step s = .next t ∧
      t.h = zeroBlock ∧ t.l = 0#64 ∧ t.sigma = 0#256 ∧ t.b = [] ∧
      t.d = zeroBlock ∧ t.dvalid = false ∧ t.err = false ∧ t.ecode = 0#2 ∧ t.lovf = false ∧
      t.phase = .idle ∧ t.cphReq = false ∧ t.cphTodo = [] ∧ t.inputs = rest ∧
      ∃ u, exec .reset s = .next u ∧ t.h = u.h ∧ t.l = u.l ∧ t.sigma = u.sigma ∧ t.b = u.b ∧
        t.d = u.d ∧ t.dvalid = u.dvalid ∧ t.err = u.err ∧ t.ecode = u.ecode ∧ t.lovf = u.lovf) ∧
    (∀ c, s.held = some c → offered p ≠ some c → step s = .refused .commandNotHeld) ∧
    cmdReady p s = false ∧ rspOffered p s = none ∧ cphOffered p s = none

/-- R42: the state right after reset, element by element; STATUS reads 0 there, cmd_ready = 1 and rsp_valid
= 0. (The values of the model's own fields and of the response word are its choice, log 2, 4, 13, 14, 15, and
are not stated.) -/
def Obligations.ResetStateElements : Prop :=
  State.reset.h = zeroBlock ∧ State.reset.l = 0#64 ∧ State.reset.sigma = 0#256 ∧
  State.reset.b = [] ∧ State.reset.d = zeroBlock ∧ State.reset.dvalid = false ∧
  State.reset.err = false ∧ State.reset.ecode = 0#2 ∧ State.reset.lovf = false ∧
  statusWord State.reset = 0x00000000#32 ∧
  ∀ p : Pins, p.rst = false →
    cmdReady p State.reset = true ∧ rspOffered p State.reset = none ∧
    cphOffered p State.reset = none

/-- The invariant of R26 and R30, with that of the model's cipher calls (log 9), holds at reset. -/
def Obligations.InvariantHoldsAtReset : Prop := Inv State.reset

/-- Every step keeps the invariant, whatever is on the pins, from every state that has it (R26, R30; the cipher
calls: log 9). -/
def Obligations.StepKeepsInvariant : Prop :=
  ∀ s t : State, Inv s → step s = .next t → Inv t

/-- Every run of clock edges is the sequence of its events, each one transition: the engine after n edges is
the engine after the commands that transferred in them and the resets, in order, whatever the latency, the
cipher's delays and the host's (R12, R55, R58, R60, R233). SBOX steady over the run (R236). That the elements
hold a command's results from the accepting edge on, while it is still in flight, is the model's choice (log 1),
and so is the response word 0 after a reset edge (log 4). -/
def Obligations.PortRunsAreCommandSequences : Prop :=
  ∀ (n : Nat) (s t : State), sboxSteady n s → runEdges n s = .next t →
    ∃ u, applyEvents (eventsOf n s) s = .next u ∧ SameEngine t u

/-- Every command that transfers gets exactly one response, in order, and it is the one its transaction gives:
the responses of the commands of a run, after that of a command already in flight, are those delivered and then
that of the command in flight at the end (R57's last sentence, R58). rst low and SBOX steady over the run. That
a command in flight has its response word from the accepting edge on is the model's choice (log 1). -/
def Obligations.OneResponsePerCommandInOrder : Prop :=
  ∀ (n : Nat) (s t : State), sboxSteady n s → noReset n s → runEdges n s = .next t →
    pending s ++ responsesOf (eventsOf n s) s = deliveredOf n s ++ pending t

/-- R243 with a prompt cipher and a willing host: a command in flight gets its response taken within two edges
for each cipher call left, LAT, and two more, and nothing of the engine changes on the way. The bound rests on
the model's two edges for a call (log 10) and its LAT (log 7): R242 gives no count of cycles. -/
def Obligations.ServedCommandCompletes : Prop :=
  ∀ (s : State) (cw : Word) (elapsed : Nat), Inv s → s.phase = .busy cw elapsed →
    ∃ n t, n ≤ 2 * callsLeft s + Config.lat cw + 2 ∧ servedRun n s = .next t ∧
      t.phase = .idle ∧ SameEngine s t

/-- R238: a response that is not taken stays, with its word, and no command is accepted meanwhile; taken, it
leaves the engine ready. Hold kept (the record of it is log 13) and SBOX steady at the edge. -/
def Obligations.ResponseHeldUntilTaken : Prop :=
  ∀ (s : State) (p : Pins) (rest : List Pins), s.inputs = p :: rest → s.phase = .responding →
    p.rst = false → p.sbox = none → (∀ c, s.held = some c → offered p = some c) →
    ∃ t, step s = .next t ∧ SameEngine s t ∧ cmdReady p s = false ∧
      rspOffered p s = some s.rspWord ∧
      (p.rspReady = false → t.phase = .responding) ∧ (p.rspReady = true → t.phase = .idle) ∧
      t.held = offered p

/-- R237 as U5 treats it (refuse; log 13): a host that withdraws or changes the command it offered before it
transferred ends the run, whatever rst is; and an offer that does not transfer, a command being in flight or rst
high, must be held. -/
def Obligations.CommandNotHeldIsRefused : Prop :=
  ∀ (s : State) (p : Pins) (rest : List Pins), s.inputs = p :: rest →
    (∀ c, s.held = some c → offered p ≠ some c → step s = .refused .commandNotHeld) ∧
    (∀ t, step s = .next t → s.phase ≠ .idle ∨ p.rst = true → t.held = offered p)

/-- Between commands the engine is idle and its state stays as it is for as long as no command is offered
and rst is low (R215's first clauses, R12: nothing else moves it). -/
def Obligations.IdleEngineKeepsItsState : Prop :=
  ∀ (n : Nat) (s : State), s.phase = .idle → s.held = none →
    (∀ p ∈ s.inputs.take n, p.rst = false ∧ p.cmdValid = false ∧ p.sbox = none) →
    runEdges n s = .next { s with inputs := s.inputs.drop n }

/-- The cipher port (R145; U6, log 11): a request goes up with one of the calls of the earliest unfinished
Step, is held steady until it is acknowledged, is dropped at that edge with that very call taken off the calls
left and no other, and an answer other than CIPHER's is refused. rst low, the hold kept, SBOX steady and not
moved. The model's reading: that the request rises at this very edge (log 10), and that the call is one of the
earliest unfinished Step's (log 9). -/
def Obligations.CipherRequestProtocol : Prop :=
  ∀ (s : State) (p : Pins) (rest : List Pins) (cw : Word) (elapsed : Nat), Inv s →
    s.inputs = p :: rest → s.phase = .busy cw elapsed → s.cphTodo ≠ [] → p.rst = false →
    p.sbox = none → s.sboxMoved = false → (∀ c, s.held = some c → offered p = some c) →
    ∃ c calls later i, s.cphTodo = calls :: later ∧ calls[i]? = some c ∧
      (s.cphReq = false → ∃ t, step s = .next t ∧ SameEngine s t ∧ t.cphTodo = s.cphTodo ∧
        cphOffered {} t = some (laneWord 256 c.key.toList, laneWord 64 c.pin.toList)) ∧
      (s.cphReq = true →
        cphOffered p s = some (laneWord 256 c.key.toList, laneWord 64 c.pin.toList) ∧
        (p.cphAck = false → ∃ t, step s = .next t ∧ SameEngine s t ∧
          t.cphTodo = s.cphTodo ∧ cphOffered {} t = cphOffered p s) ∧
        (p.cphAck = true → p.cphOut = laneWord 64 (Config.cipher s.sbox c.key c.pin).toList →
          ∃ t, step s = .next t ∧ SameEngine s t ∧ t.cphReq = false ∧
            t.cphTodo = (if calls.length = 1 then later else calls.eraseIdx i :: later) ∧
            callsLeft t + 1 = callsLeft s) ∧
        (p.cphAck = true → p.cphOut ≠ laneWord 64 (Config.cipher s.sbox c.key c.pin).toList →
          step s = .refused .cipherAnswerWrong))

/-- The cipher work of each command (R242's columns of Step calls and cipher calls): a WRITE that fills a block
one Step of 4 calls, a SUM two or three, any other command and a WRITE that fills none no call; and which calls
they are (R143, R161; those of SUM's steps are written out in SumWritesDigest). -/
def Obligations.CipherWorkOfEachCommand : Prop :=
  ∀ (i : Instr) (s : State), i.wellFormed = true → s.b.length < 32 → ∃ t calls,
    exec i s = .next t ∧ t.cphTodo = s.cphTodo ++ calls ∧ (∀ g ∈ calls, g.length = 4) ∧
    (calls = match i with
      | .write nb dw => if s.b.length + nb.toNat < 32 then []
        else [stepCalls s.h (reverseBlock (padBlock ((s.b ++ dataBytes nb dw).take 32)))]
      | .sum => (finalize s).calls
      | _ => []) ∧
    calls.length = match i with
      | .write nb _ => if s.b.length + nb.toNat < 32 then 0 else 1
      | .sum => if s.b = [] then 2 else 3
      | _ => 0
end

