-- ==== Sys2Proof/Laws/BlockAlgebra.lean ====
section
/-! SUPPORT. Each datapath function byte by byte (40_block_algebra.md, 42_cipher_adapter.md), and the integer
views of byte lists (00_scope.md R9). -/

namespace Sys2Proof.Machine

@[simp] theorem getElem_zeroBlock (i : Nat) (hi : i < 32) : zeroBlock[i] = 0#8 := by
  simp [zeroBlock]

@[simp] theorem getElem_xorBlock (a b : Block) (i : Nat) (hi : i < 32) :
    (xorBlock a b)[i] = a[i] ^^^ b[i] := by
  simp [xorBlock]

@[simp] theorem getElem_reverseBlock (a : Block) (i : Nat) (hi : i < 32) :
    (reverseBlock a)[i] = a[31 - i] := by
  simp [reverseBlock]

@[simp] theorem getElem_reverse8 (q : Quarter) (i : Nat) (hi : i < 8) :
    (reverse8 q)[i] = q[7 - i] := by
  simp [reverse8]

theorem getElem_transA_feedback (y : Block) (i : Nat) (hi : i < 8) :
    (transA y)[i] = y[16 + i] ^^^ y[24 + i] := by
  simp [transA, hi]

theorem getElem_transA_shift (y : Block) (i : Nat) (hi : i < 24) :
    (transA y)[8 + i] = y[i] := by
  simp [transA]

theorem getElem_permP (y : Block) (t : Nat) (ht : t < 32) :
    (permP y)[t] = y[8 * (t % 4) + t / 4] := by
  simp [permP]

theorem getElem_chi_feedback (y : Block) (i : Nat) (hi : i < 2) :
    (chi y)[i] = y[i] ^^^ y[6 + i] ^^^ y[24 + i] ^^^ y[26 + i] ^^^ y[28 + i] ^^^ y[30 + i] := by
  simp [chi, Nat.le_of_lt_succ hi]

theorem getElem_chi_shift (y : Block) (i : Nat) (hi : i < 30) : (chi y)[2 + i] = y[i] := by
  simp [chi, show ¬(2 + i ≤ 1) by omega]

theorem getElem_quarterOf (h : Block) (j : Fin 4) (i : Nat) (hi : i < 8) :
    (quarterOf h j)[i] = h[24 - 8 * j.val + i] := by
  simp [quarterOf]

theorem getElem_sBlock (enc : Encrypt) (h m : Block) (i : Nat) (hi : i < 32) :
    (sBlock enc h m)[i] = (encryptRound enc h m ⟨3 - i / 8, by omega⟩)[i % 8] := by
  simp [sBlock]

theorem getElem_padBlock (bs : List Byte) (i : Nat) (hi : i < 32) :
    (padBlock bs)[i] = bs.getD i 0#8 := by
  simp [padBlock]

theorem getElem_beBytes (n v i : Nat) (hi : i < n) :
    (beBytes n v)[i] = BitVec.ofNat 8 (v / 256 ^ (n - 1 - i)) := by
  simp [beBytes]

@[simp] theorem leInt_nil : leInt [] = 0 := rfl

@[simp] theorem leInt_cons (x : Byte) (bs : List Byte) :
    leInt (x :: bs) = x.toNat + 256 * leInt bs := rfl

theorem leInt_append (xs ys : List Byte) :
    leInt (xs ++ ys) = leInt xs + 256 ^ xs.length * leInt ys := by
  induction xs with
  | nil => simp
  | cons x xs ih => simp [ih, Nat.pow_succ]; ring

theorem leInt_lt (bs : List Byte) : leInt bs < 256 ^ bs.length := by
  induction bs with
  | nil => simp
  | cons x xs ih =>
    have := x.isLt
    simp only [leInt_cons, List.length_cons, Nat.pow_succ]
    omega

/-- The first byte is the most significant, so `be_int` is `le_int` of the reversed list (R9, R118). -/
theorem beInt_eq_leInt_reverse (bs : List Byte) : beInt bs = leInt bs.reverse := by
  simp [beInt, leInt, List.foldr_reverse, Nat.add_comm]

theorem beInt_lt (bs : List Byte) : beInt bs < 256 ^ bs.length := by
  simpa [beInt_eq_leInt_reverse] using leInt_lt bs.reverse

end Sys2Proof.Machine
end

