-- ==== Sys2Proof/Laws/State.lean ====
section
/-! SUPPORT. One lemma per field of State for each plain update of it. -/

namespace Sys2Proof.Machine

@[simp] theorem respond_h (rw : Word) (s : State) :
    (respond rw s).h = s.h := rfl

@[simp] theorem respond_l (rw : Word) (s : State) :
    (respond rw s).l = s.l := rfl

@[simp] theorem respond_sigma (rw : Word) (s : State) :
    (respond rw s).sigma = s.sigma := rfl

@[simp] theorem respond_b (rw : Word) (s : State) :
    (respond rw s).b = s.b := rfl

@[simp] theorem respond_d (rw : Word) (s : State) :
    (respond rw s).d = s.d := rfl

@[simp] theorem respond_dvalid (rw : Word) (s : State) :
    (respond rw s).dvalid = s.dvalid := rfl

@[simp] theorem respond_err (rw : Word) (s : State) :
    (respond rw s).err = s.err := rfl

@[simp] theorem respond_ecode (rw : Word) (s : State) :
    (respond rw s).ecode = s.ecode := rfl

@[simp] theorem respond_lovf (rw : Word) (s : State) :
    (respond rw s).lovf = s.lovf := rfl

@[simp] theorem respond_phase (rw : Word) (s : State) :
    (respond rw s).phase = s.phase := rfl

@[simp] theorem respond_rspWord (rw : Word) (s : State) :
    (respond rw s).rspWord = rw := rfl

@[simp] theorem respond_cphTodo (rw : Word) (s : State) :
    (respond rw s).cphTodo = s.cphTodo := rfl

@[simp] theorem respond_cphReq (rw : Word) (s : State) :
    (respond rw s).cphReq = s.cphReq := rfl

@[simp] theorem respond_sbox (rw : Word) (s : State) :
    (respond rw s).sbox = s.sbox := rfl

@[simp] theorem respond_sboxMoved (rw : Word) (s : State) :
    (respond rw s).sboxMoved = s.sboxMoved := rfl

@[simp] theorem respond_free (rw : Word) (s : State) :
    (respond rw s).free = s.free := rfl

@[simp] theorem respond_inputs (rw : Word) (s : State) :
    (respond rw s).inputs = s.inputs := rfl

@[simp] theorem respond_held (rw : Word) (s : State) :
    (respond rw s).held = s.held := rfl

@[simp] theorem respondStatus_h  (s : State) :
    (respondStatus s).h = s.h := rfl

@[simp] theorem respondStatus_l  (s : State) :
    (respondStatus s).l = s.l := rfl

@[simp] theorem respondStatus_sigma  (s : State) :
    (respondStatus s).sigma = s.sigma := rfl

@[simp] theorem respondStatus_b  (s : State) :
    (respondStatus s).b = s.b := rfl

@[simp] theorem respondStatus_d  (s : State) :
    (respondStatus s).d = s.d := rfl

@[simp] theorem respondStatus_dvalid  (s : State) :
    (respondStatus s).dvalid = s.dvalid := rfl

@[simp] theorem respondStatus_err  (s : State) :
    (respondStatus s).err = s.err := rfl

@[simp] theorem respondStatus_ecode  (s : State) :
    (respondStatus s).ecode = s.ecode := rfl

@[simp] theorem respondStatus_lovf  (s : State) :
    (respondStatus s).lovf = s.lovf := rfl

@[simp] theorem respondStatus_phase  (s : State) :
    (respondStatus s).phase = s.phase := rfl

@[simp] theorem respondStatus_rspWord  (s : State) :
    (respondStatus s).rspWord = statusWord s := rfl

@[simp] theorem respondStatus_cphTodo  (s : State) :
    (respondStatus s).cphTodo = s.cphTodo := rfl

@[simp] theorem respondStatus_cphReq  (s : State) :
    (respondStatus s).cphReq = s.cphReq := rfl

@[simp] theorem respondStatus_sbox  (s : State) :
    (respondStatus s).sbox = s.sbox := rfl

@[simp] theorem respondStatus_sboxMoved  (s : State) :
    (respondStatus s).sboxMoved = s.sboxMoved := rfl

@[simp] theorem respondStatus_free  (s : State) :
    (respondStatus s).free = s.free := rfl

@[simp] theorem respondStatus_inputs  (s : State) :
    (respondStatus s).inputs = s.inputs := rfl

@[simp] theorem respondStatus_held  (s : State) :
    (respondStatus s).held = s.held := rfl

@[simp] theorem absorbBlock_h (raw : Block) (s : State) :
    (absorbBlock raw s).h = compress s.encrypt s.h (reverseBlock raw) := rfl

@[simp] theorem absorbBlock_l (raw : Block) (s : State) :
    (absorbBlock raw s).l = counterAdd s.l := rfl

@[simp] theorem absorbBlock_sigma (raw : Block) (s : State) :
    (absorbBlock raw s).sigma = checksumAdd s.sigma (reverseBlock raw) := rfl

@[simp] theorem absorbBlock_b (raw : Block) (s : State) :
    (absorbBlock raw s).b = [] := rfl

@[simp] theorem absorbBlock_d (raw : Block) (s : State) :
    (absorbBlock raw s).d = s.d := rfl

@[simp] theorem absorbBlock_dvalid (raw : Block) (s : State) :
    (absorbBlock raw s).dvalid = s.dvalid := rfl

@[simp] theorem absorbBlock_err (raw : Block) (s : State) :
    (absorbBlock raw s).err = s.err := rfl

@[simp] theorem absorbBlock_ecode (raw : Block) (s : State) :
    (absorbBlock raw s).ecode = s.ecode := rfl

@[simp] theorem absorbBlock_lovf (raw : Block) (s : State) :
    (absorbBlock raw s).lovf = overflowAfter s.l s.lovf := rfl

@[simp] theorem absorbBlock_phase (raw : Block) (s : State) :
    (absorbBlock raw s).phase = s.phase := rfl

@[simp] theorem absorbBlock_rspWord (raw : Block) (s : State) :
    (absorbBlock raw s).rspWord = s.rspWord := rfl

@[simp] theorem absorbBlock_cphTodo (raw : Block) (s : State) :
    (absorbBlock raw s).cphTodo = s.cphTodo ++ [stepCalls s.h (reverseBlock raw)] := rfl

@[simp] theorem absorbBlock_cphReq (raw : Block) (s : State) :
    (absorbBlock raw s).cphReq = s.cphReq := rfl

@[simp] theorem absorbBlock_sbox (raw : Block) (s : State) :
    (absorbBlock raw s).sbox = s.sbox := rfl

@[simp] theorem absorbBlock_sboxMoved (raw : Block) (s : State) :
    (absorbBlock raw s).sboxMoved = s.sboxMoved := rfl

@[simp] theorem absorbBlock_free (raw : Block) (s : State) :
    (absorbBlock raw s).free = s.free := rfl

@[simp] theorem absorbBlock_inputs (raw : Block) (s : State) :
    (absorbBlock raw s).inputs = s.inputs := rfl

@[simp] theorem absorbBlock_held (raw : Block) (s : State) :
    (absorbBlock raw s).held = s.held := rfl

@[simp] theorem raiseIllegal_h (c : Cause) (s : State) :
    (raiseIllegal c s).h = s.h := rfl

@[simp] theorem raiseIllegal_l (c : Cause) (s : State) :
    (raiseIllegal c s).l = s.l := rfl

@[simp] theorem raiseIllegal_sigma (c : Cause) (s : State) :
    (raiseIllegal c s).sigma = s.sigma := rfl

@[simp] theorem raiseIllegal_b (c : Cause) (s : State) :
    (raiseIllegal c s).b = s.b := rfl

@[simp] theorem raiseIllegal_d (c : Cause) (s : State) :
    (raiseIllegal c s).d = s.d := rfl

@[simp] theorem raiseIllegal_dvalid (c : Cause) (s : State) :
    (raiseIllegal c s).dvalid = s.dvalid := rfl

@[simp] theorem raiseIllegal_err (c : Cause) (s : State) :
    (raiseIllegal c s).err = true := rfl

@[simp] theorem raiseIllegal_ecode (c : Cause) (s : State) :
    (raiseIllegal c s).ecode = (if s.err then s.ecode else causeCode c) := rfl

@[simp] theorem raiseIllegal_lovf (c : Cause) (s : State) :
    (raiseIllegal c s).lovf = s.lovf := rfl

@[simp] theorem raiseIllegal_phase (c : Cause) (s : State) :
    (raiseIllegal c s).phase = s.phase := rfl

@[simp] theorem raiseIllegal_rspWord (c : Cause) (s : State) :
    (raiseIllegal c s).rspWord = statusWord
      { s with ecode := if s.err then s.ecode else causeCode c, err := true } := rfl

@[simp] theorem raiseIllegal_cphTodo (c : Cause) (s : State) :
    (raiseIllegal c s).cphTodo = s.cphTodo := rfl

@[simp] theorem raiseIllegal_cphReq (c : Cause) (s : State) :
    (raiseIllegal c s).cphReq = s.cphReq := rfl

@[simp] theorem raiseIllegal_sbox (c : Cause) (s : State) :
    (raiseIllegal c s).sbox = s.sbox := rfl

@[simp] theorem raiseIllegal_sboxMoved (c : Cause) (s : State) :
    (raiseIllegal c s).sboxMoved = s.sboxMoved := rfl

@[simp] theorem raiseIllegal_free (c : Cause) (s : State) :
    (raiseIllegal c s).free = s.free := rfl

@[simp] theorem raiseIllegal_inputs (c : Cause) (s : State) :
    (raiseIllegal c s).inputs = s.inputs := rfl

@[simp] theorem raiseIllegal_held (c : Cause) (s : State) :
    (raiseIllegal c s).held = s.held := rfl

@[simp] theorem clearEngine_h  (s : State) :
    (clearEngine s).h = zeroBlock := rfl

@[simp] theorem clearEngine_l  (s : State) :
    (clearEngine s).l = 0#64 := rfl

@[simp] theorem clearEngine_sigma  (s : State) :
    (clearEngine s).sigma = 0#256 := rfl

@[simp] theorem clearEngine_b  (s : State) :
    (clearEngine s).b = [] := rfl

@[simp] theorem clearEngine_d  (s : State) :
    (clearEngine s).d = zeroBlock := rfl

@[simp] theorem clearEngine_dvalid  (s : State) :
    (clearEngine s).dvalid = false := rfl

@[simp] theorem clearEngine_err  (s : State) :
    (clearEngine s).err = false := rfl

@[simp] theorem clearEngine_ecode  (s : State) :
    (clearEngine s).ecode = 0#2 := rfl

@[simp] theorem clearEngine_lovf  (s : State) :
    (clearEngine s).lovf = false := rfl

@[simp] theorem clearEngine_phase  (s : State) :
    (clearEngine s).phase = s.phase := rfl

@[simp] theorem clearEngine_rspWord  (s : State) :
    (clearEngine s).rspWord = s.rspWord := rfl

@[simp] theorem clearEngine_cphTodo  (s : State) :
    (clearEngine s).cphTodo = s.cphTodo := rfl

@[simp] theorem clearEngine_cphReq  (s : State) :
    (clearEngine s).cphReq = s.cphReq := rfl

@[simp] theorem clearEngine_sbox  (s : State) :
    (clearEngine s).sbox = s.sbox := rfl

@[simp] theorem clearEngine_sboxMoved  (s : State) :
    (clearEngine s).sboxMoved = false := rfl

@[simp] theorem clearEngine_free  (s : State) :
    (clearEngine s).free = s.free := rfl

@[simp] theorem clearEngine_inputs  (s : State) :
    (clearEngine s).inputs = s.inputs := rfl

@[simp] theorem clearEngine_held  (s : State) :
    (clearEngine s).held = s.held := rfl

@[simp] theorem hardwareReset_h (p : Pins) (s : State) :
    (hardwareReset p s).h = zeroBlock := rfl

@[simp] theorem hardwareReset_l (p : Pins) (s : State) :
    (hardwareReset p s).l = 0#64 := rfl

@[simp] theorem hardwareReset_sigma (p : Pins) (s : State) :
    (hardwareReset p s).sigma = 0#256 := rfl

@[simp] theorem hardwareReset_b (p : Pins) (s : State) :
    (hardwareReset p s).b = [] := rfl

@[simp] theorem hardwareReset_d (p : Pins) (s : State) :
    (hardwareReset p s).d = zeroBlock := rfl

@[simp] theorem hardwareReset_dvalid (p : Pins) (s : State) :
    (hardwareReset p s).dvalid = false := rfl

@[simp] theorem hardwareReset_err (p : Pins) (s : State) :
    (hardwareReset p s).err = false := rfl

@[simp] theorem hardwareReset_ecode (p : Pins) (s : State) :
    (hardwareReset p s).ecode = 0#2 := rfl

@[simp] theorem hardwareReset_lovf (p : Pins) (s : State) :
    (hardwareReset p s).lovf = false := rfl

@[simp] theorem hardwareReset_phase (p : Pins) (s : State) :
    (hardwareReset p s).phase = .idle := rfl

@[simp] theorem hardwareReset_rspWord (p : Pins) (s : State) :
    (hardwareReset p s).rspWord = 0#32 := rfl

@[simp] theorem hardwareReset_cphTodo (p : Pins) (s : State) :
    (hardwareReset p s).cphTodo = [] := rfl

@[simp] theorem hardwareReset_cphReq (p : Pins) (s : State) :
    (hardwareReset p s).cphReq = false := rfl

@[simp] theorem hardwareReset_sbox (p : Pins) (s : State) :
    (hardwareReset p s).sbox = p.sbox.getD s.sbox := rfl

@[simp] theorem hardwareReset_sboxMoved (p : Pins) (s : State) :
    (hardwareReset p s).sboxMoved = false := rfl

@[simp] theorem hardwareReset_free (p : Pins) (s : State) :
    (hardwareReset p s).free = s.free := rfl

@[simp] theorem hardwareReset_inputs (p : Pins) (s : State) :
    (hardwareReset p s).inputs = s.inputs := rfl

@[simp] theorem hardwareReset_held (p : Pins) (s : State) :
    (hardwareReset p s).held = offered p := rfl

@[simp] theorem respond_encrypt (rw : Word) (s : State) :
    (respond rw s).encrypt = s.encrypt := rfl

@[simp] theorem respondStatus_encrypt  (s : State) :
    (respondStatus s).encrypt = s.encrypt := rfl

@[simp] theorem absorbBlock_encrypt (raw : Block) (s : State) :
    (absorbBlock raw s).encrypt = s.encrypt := rfl

@[simp] theorem raiseIllegal_encrypt (c : Cause) (s : State) :
    (raiseIllegal c s).encrypt = s.encrypt := rfl

@[simp] theorem clearEngine_encrypt  (s : State) :
    (clearEngine s).encrypt = s.encrypt := rfl

end Sys2Proof.Machine
end

