-- ==== Sys2Proof/Laws/Ops.lean ====
section
/-! SUPPORT. For each shared operation, once, everything it can do. -/

namespace Sys2Proof.Machine

theorem length_dataBytes (nb : BitVec 3) (dw : Word) : (dataBytes nb dw).length = nb.toNat := by
  simp [dataBytes]

/-- Appending bytes that do not fill B only appends them (R164). -/
theorem appendBytes_short (s : State) (bs : List Byte) (h : s.b.length + bs.length < 32) :
    appendBytes s bs = { s with b := s.b ++ bs } := by
  induction bs generalizing s with
  | nil => simp [appendBytes]
  | cons x xs ih =>
    simp only [List.length_cons] at h
    have hx : appendByte s x = { s with b := s.b ++ [x] } := by
      unfold appendByte
      rw [if_neg]
      simp only [List.length_append, List.length_singleton]
      omega
    have := ih (appendByte s x) (by rw [hx]; simp only [List.length_append, List.length_singleton]; omega)
    simp only [appendBytes, List.foldl_cons] at this ⊢
    rw [this, hx]
    simp

theorem appendBytes_append (s : State) (xs ys : List Byte) :
    appendBytes s (xs ++ ys) = appendBytes (appendBytes s xs) ys := by
  simp [appendBytes]

/-- Appending bytes that fill B absorbs the first 32 and keeps the rest (R161, R164). -/
theorem appendBytes_full (s : State) (bs : List Byte) (hb : s.b.length < 32)
    (hfull : 32 ≤ s.b.length + bs.length) (hlt : s.b.length + bs.length < 64) :
    appendBytes s bs =
      { absorbBlock (padBlock ((s.b ++ bs).take 32)) s with b := (s.b ++ bs).drop 32 } := by
  obtain ⟨n, hn⟩ : ∃ n, n + s.b.length = 31 := ⟨31 - s.b.length, by omega⟩
  have hlen : n < bs.length := by omega
  have hsplit : bs = bs.take n ++ (bs[n] :: bs.drop (n + 1)) := by simp
  have h1 : appendBytes s (bs.take n) = { s with b := s.b ++ bs.take n } :=
    appendBytes_short s _ (by simp only [List.length_take]; omega)
  have htake : (s.b ++ bs).take 32 = s.b ++ bs.take n ++ [bs[n]] := by
    have : 32 - s.b.length = n + 1 := by omega
    rw [List.take_append, this, List.take_of_length_le (by omega), List.append_assoc,
      List.take_succ_eq_append_getElem hlen]
  have hdrop : (s.b ++ bs).drop 32 = bs.drop (n + 1) := by
    have : 32 - s.b.length = n + 1 := by omega
    rw [List.drop_append, this, List.drop_of_length_le (by omega), List.nil_append]
  have h2 : appendByte { s with b := s.b ++ bs.take n } bs[n] =
      absorbBlock (padBlock ((s.b ++ bs).take 32)) s := by
    unfold appendByte
    rw [if_pos, htake]
    · rfl
    · simp only [List.length_append, List.length_take, List.length_singleton]; omega
  have h3 : appendBytes (absorbBlock (padBlock ((s.b ++ bs).take 32)) s) (bs.drop (n + 1)) =
      { absorbBlock (padBlock ((s.b ++ bs).take 32)) s with b := bs.drop (n + 1) } := by
    rw [appendBytes_short]
    · simp
    · simp only [absorbBlock_b, List.length_nil, List.length_drop]; omega
  rw [hdrop]
  calc appendBytes s bs
      = appendBytes s (bs.take n ++ (bs[n] :: bs.drop (n + 1))) := by rw [← hsplit]
    _ = appendBytes (appendByte (appendBytes s (bs.take n)) bs[n]) (bs.drop (n + 1)) := by
        rw [appendBytes_append]; rfl
    _ = _ := by rw [h1, h2, h3]

/-- A tail in B is one more Step; none leaves the shadow copies alone (R166, R174). -/
theorem shadowTail_nil (enc : Encrypt) (c : Shadow) : shadowTail enc [] c = c := rfl

theorem shadowTail_cons (enc : Encrypt) (b : List Byte) (c : Shadow) (h : b ≠ []) :
    shadowTail enc b c =
      { h := compress enc c.h (reverseBlock (padBlock b))
        l := c.l + BitVec.ofNat 64 (8 * b.length)
        sigma := checksumAdd c.sigma (reverseBlock (padBlock b))
        calls := c.calls ++ [stepCalls c.h (reverseBlock (padBlock b))] } := by
  simp [shadowTail, shadowStep, h]

theorem writeDigest_steady (hFinal : Block) (s : State) (h : s.sboxMoved = false) :
    writeDigest hFinal s = { s with d := reverseBlock hFinal } := by
  simp [writeDigest, h]

theorem writeDigest_moved (hFinal : Block) (s : State) (h : s.sboxMoved = true) :
    writeDigest hFinal s = { s with d := Config.freeDigest s.free, free := s.free + 1 } := by
  simp [writeDigest, h]

/-- A transaction is a command's meaning or the exception, nothing else (R55). -/
theorem transact_cases (cw dw : Word) (s : State) :
    (∃ i, decode cw dw = .ok i ∧ transact cw dw s = exec i s) ∨
    (∃ c, decode cw dw = .error c ∧ transact cw dw s = .next (raiseIllegal c s)) := by
  unfold transact
  cases h : decode cw dw with
  | ok i => exact .inl ⟨i, rfl, rfl⟩
  | error c => exact .inr ⟨c, rfl, rfl⟩

/-- Appending a byte touches only H, L, Σ, B, LOVF, and adds cipher calls (R161, R164). -/
theorem appendByte_frame (s : State) (x : Byte) : ∃ h l sigma b lovf calls,
    appendByte s x = { s with
      h := h, l := l, sigma := sigma, b := b, lovf := lovf, cphTodo := s.cphTodo ++ calls } := by
  unfold appendByte
  split
  · exact ⟨_, _, _, _, _, _, rfl⟩
  · exact ⟨s.h, s.l, s.sigma, s.b ++ [x], s.lovf, [], by simp⟩

/-- Appending bytes touches only H, L, Σ, B, LOVF, and adds cipher calls (R161, R164). -/
theorem appendBytes_frame (s : State) (bs : List Byte) : ∃ h l sigma b lovf calls,
    appendBytes s bs = { s with
      h := h, l := l, sigma := sigma, b := b, lovf := lovf, cphTodo := s.cphTodo ++ calls } := by
  induction bs generalizing s with
  | nil => exact ⟨s.h, s.l, s.sigma, s.b, s.lovf, [], by simp [appendBytes]⟩
  | cons x xs ih =>
    obtain ⟨_, _, _, _, _, c, e⟩ := appendByte_frame s x
    obtain ⟨h, l, sigma, b, lovf, c', e'⟩ := ih (appendByte s x)
    refine ⟨h, l, sigma, b, lovf, c ++ c', ?_⟩
    simp only [appendBytes, List.foldl_cons] at e' ⊢
    rw [e', e]
    simp

/-- What appending bytes does to the hash state depends on the hash state and SBOX alone. -/
theorem appendBytes_congr (s t : State) (bs : List Byte) (h : t.h = s.h) (l : t.l = s.l)
    (sigma : t.sigma = s.sigma) (b : t.b = s.b) (lovf : t.lovf = s.lovf) (sbox : t.sbox = s.sbox) :
    (appendBytes t bs).h = (appendBytes s bs).h ∧ (appendBytes t bs).l = (appendBytes s bs).l ∧
    (appendBytes t bs).sigma = (appendBytes s bs).sigma ∧
    (appendBytes t bs).b = (appendBytes s bs).b ∧
    (appendBytes t bs).lovf = (appendBytes s bs).lovf := by
  induction bs generalizing s t with
  | nil => exact ⟨h, l, sigma, b, lovf⟩
  | cons x xs ih =>
    apply ih <;>
      (unfold appendByte; rw [b]; split <;> simp [h, l, sigma, lovf, sbox, State.encrypt])

/-- The STATUS word depends on the fields it shows, and on no other (R32). -/
theorem statusWord_congr (s t : State) (b : t.b = s.b) (dvalid : t.dvalid = s.dvalid)
    (err : t.err = s.err) (ecode : t.ecode = s.ecode) (lovf : t.lovf = s.lovf) :
    statusWord t = statusWord s := by
  simp [statusWord, blen, b, dvalid, err, ecode, lovf]

/-- The SUM's computation depends on H, L, Σ, B and SBOX alone (R165). -/
theorem finalize_congr (s t : State) (h : t.h = s.h) (l : t.l = s.l) (sigma : t.sigma = s.sigma)
    (b : t.b = s.b) (sbox : t.sbox = s.sbox) : finalize t = finalize s := by
  simp [finalize, State.encrypt, h, l, sigma, b, sbox]

/-- What SUM does, SBOX not moved (R165, R169, R170). -/
theorem execSum_steady (s : State) (h : s.sboxMoved = false) :
    execSum s = .next (respondStatus { s with
      d := reverseBlock (finalize s).h
      dvalid := true
      cphTodo := s.cphTodo ++ (finalize s).calls }) := by
  simp only [execSum, writeDigest_steady _ _ h]

/-- SUM touches D, DVALID, the response and the free values used, and adds cipher calls (R170). -/
theorem execSum_frame (s : State) : ∃ d free calls rw,
    execSum s = .next { s with
      d := d, free := free, dvalid := true, rspWord := rw, cphTodo := s.cphTodo ++ calls } := by
  simp only [execSum]
  generalize finalize s = f
  rcases Bool.eq_false_or_eq_true s.sboxMoved with h | h
  · exact ⟨_, _, _, _, by rw [writeDigest_moved _ _ h]; rfl⟩
  · exact ⟨_, s.free, _, _, by rw [writeDigest_steady _ _ h]; rfl⟩

/-- What a WRITE of at most four bytes does (R164). -/
theorem execWrite_legal (nb : BitVec 3) (dw : Word) (s : State) (h : nb ≤ 4#3) :
    execWrite nb dw s = .next (respond (nb.setWidth 32) { appendBytes s (dataBytes nb dw) with
      dvalid := if nb = 0#3 then (appendBytes s (dataBytes nb dw)).dvalid else false }) := by
  simp [execWrite, h]

/-- Lane k of the word that carries some bytes is byte k, 0 past the last (R54). -/
theorem dataByte_laneWord (bs : List Byte) (h : bs.length ≤ 4) (k : Nat) (hk : k < 4) :
    dataByte (laneWord 32 bs) k = bs.getD k 0#8 := by
  have hb : ∀ x : Byte, x.toNat < 256 := fun x => x.isLt
  apply BitVec.eq_of_toNat_eq
  have hl : leInt bs < 2 ^ 32 := lt_of_lt_of_le (leInt_lt bs) (by
    calc 256 ^ bs.length ≤ 256 ^ 4 := Nat.pow_le_pow_right (by norm_num) h
      _ = _ := by norm_num)
  have : (dataByte (laneWord 32 bs) k).toNat = leInt bs / 256 ^ k % 256 := by
    rw [dataByte, laneWord, BitVec.extractLsb'_toNat, BitVec.toNat_ofNat, Nat.mod_eq_of_lt hl,
      Nat.shiftRight_eq_div_pow, pow_mul]
    norm_num
  rw [this]
  match bs, h with
  | [], _ => simp
  | [a], _ => have := hb a; interval_cases k <;> simp <;> omega
  | [a, b], _ => have := hb a; have := hb b; interval_cases k <;> simp <;> omega
  | [a, b, c], _ =>
    have := hb a; have := hb b; have := hb c; interval_cases k <;> simp <;> omega
  | [a, b, c, d], _ =>
    have := hb a; have := hb b; have := hb c; have := hb d; interval_cases k <;> simp <;> omega

/-- Sampling SBOX touches SBOX, the record that it moved, and the digest of a SUM in flight (R236). -/
theorem driveSbox_frame (p : Pins) (s : State) : ∃ sbox moved d free,
    driveSbox p s = { s with sbox := sbox, sboxMoved := moved, d := d, free := free } := by
  unfold driveSbox
  split
  · exact ⟨s.sbox, s.sboxMoved, s.d, s.free, rfl⟩
  · split
    · exact ⟨s.sbox, s.sboxMoved, s.d, s.free, rfl⟩
    · split
      · exact ⟨_, _, _, _, rfl⟩
      · exact ⟨_, _, s.d, s.free, rfl⟩

/-- The hold is kept exactly when a held command is offered again as it is (R237). -/
theorem holdBroken_eq_false (p : Pins) (s : State) :
    holdBroken p s = false ↔ ∀ c, s.held = some c → offered p = some c := by
  unfold holdBroken
  cases s.held <;> simp

/-- With the hold kept and rst low, an edge samples SBOX and runs (R237, R236). -/
theorem clockEdge_run (p : Pins) (s : State) (hold : ∀ c, s.held = some c → offered p = some c)
    (rst : p.rst = false) : clockEdge p s = runEdge p (driveSbox p s) := by
  simp [clockEdge, (holdBroken_eq_false p s).2 hold, rst]

/-- With the hold kept and rst high, an edge resets (R230). -/
theorem clockEdge_reset (p : Pins) (s : State) (hold : ∀ c, s.held = some c → offered p = some c)
    (rst : p.rst = true) : clockEdge p s = .next (hardwareReset p s) := by
  simp [clockEdge, (holdBroken_eq_false p s).2 hold, rst]

/-- A broken hold is refused (R237). -/
theorem clockEdge_broken (p : Pins) (s : State) (hold : holdBroken p s = true) :
    clockEdge p s = .refused .commandNotHeld := by
  simp [clockEdge, hold]

/-- An edge is the edge of the pins at the head of the list. -/
theorem step_cons (s : State) (p : Pins) (rest : List Pins) (h : s.inputs = p :: rest) :
    step s = clockEdge p { s with inputs := rest } := by
  simp [step, nextEdge, nextPins, h]

/-- What a command does to the engine, it does while it is in flight: the fields of the handshake other than
the response word, SBOX, and the pins to come, are left alone by every transaction (R55). -/
theorem transact_frame (cw dw : Word) (s t : State) (h : transact cw dw s = .next t) :
    t.phase = s.phase ∧ t.cphReq = s.cphReq ∧ t.sbox = s.sbox ∧ t.inputs = s.inputs ∧
    t.held = s.held ∧ ∃ calls, t.cphTodo = s.cphTodo ++ calls := by
  rcases transact_cases cw dw s with ⟨i, _, he⟩ | ⟨c, _, he⟩
  · rw [he] at h
    cases i with
    | write nb d =>
      simp only [exec] at h
      by_cases hn : nb ≤ 4#3
      · rw [execWrite_legal _ _ _ hn] at h
        obtain ⟨_, _, _, _, _, c, e⟩ := appendBytes_frame s (dataBytes nb d)
        simp only [Host.Outcome.next.injEq] at h
        subst h
        rw [e]
        exact ⟨rfl, rfl, rfl, rfl, rfl, c, rfl⟩
      · simp only [execWrite, hn, if_false, Host.Outcome.next.injEq] at h
        subst h
        exact ⟨rfl, rfl, rfl, rfl, rfl, [], by simp⟩
    | sum =>
      obtain ⟨_, _, c, _, e⟩ := execSum_frame s
      simp only [exec, e, Host.Outcome.next.injEq] at h
      subst h
      exact ⟨rfl, rfl, rfl, rfl, rfl, c, rfl⟩
    | _ =>
      simp only [exec, execNop, execReset, execRddig, execGetbs, execGetsz, execStatus,
        Host.Outcome.next.injEq] at h
      subst h
      exact ⟨rfl, rfl, rfl, rfl, rfl, [], by simp⟩
  · rw [he] at h
    simp only [Host.Outcome.next.injEq] at h
    subst h
    exact ⟨rfl, rfl, rfl, rfl, rfl, [], by simp⟩

theorem driveSbox_steady (p : Pins) (s : State) (h : p.sbox = none) : driveSbox p s = s := by
  simp [driveSbox, h]

/-- With no empty list among the calls left, there is a call to make unless none is left (R145). -/
theorem currentCall_eq_none (s : State) (h : [] ∉ s.cphTodo) :
    currentCall s = none ↔ s.cphTodo = [] := by
  unfold currentCall
  cases hc : s.cphTodo with
  | nil => simp
  | cons g gs =>
    have hg : g ≠ [] := fun e => h (by simp [hc, e])
    have : 0 < g.length := List.length_pos_iff.2 hg
    simp [Nat.mod_lt _ this]

/-- Everything an edge in flight can do (R145, R242). -/
theorem busyEdge_cases (p : Pins) (cw : Word) (n : Nat) (s : State) :
    (∃ c, currentCall s = some c ∧
      ((s.cphReq = false ∧
          busyEdge p cw n s = .next { s with phase := .busy cw (n + 1), cphReq := true }) ∨
        (s.cphReq = true ∧ p.cphAck = false ∧
          busyEdge p cw n s = .next { s with phase := .busy cw (n + 1) }) ∨
        (s.cphReq = true ∧ p.cphAck = true ∧ answerRight p c s = true ∧
          busyEdge p cw n s = .next { s with
            phase := .busy cw (n + 1), cphReq := false, cphTodo := todoAfter s }) ∨
        (s.cphReq = true ∧ p.cphAck = true ∧ answerRight p c s = false ∧
          busyEdge p cw n s = .refused .cipherAnswerWrong))) ∨
    (currentCall s = none ∧
      ((Config.lat cw ≤ n + 1 ∧ busyEdge p cw n s = .next { s with phase := .responding }) ∨
        (n + 1 < Config.lat cw ∧
          busyEdge p cw n s = .next { s with phase := .busy cw (n + 1) }))) := by
  unfold busyEdge
  cases hc : currentCall s with
  | some c =>
    refine .inl ⟨c, rfl, ?_⟩
    cases hr : s.cphReq <;> cases ha : p.cphAck <;> cases hw : answerRight p c s <;> simp [hw]
  | none =>
    refine .inr ⟨rfl, ?_⟩
    by_cases hl : Config.lat cw ≤ n + 1
    · exact .inl ⟨hl, by simp [hl]⟩
    · exact .inr ⟨by omega, by simp [hl]⟩

/-- Everything an edge that answers a next state can be (R57, R215, R230, R238). -/
theorem clockEdge_next (p : Pins) (s t : State) (h : clockEdge p s = .next t) :
    holdBroken p s = false ∧
    ((p.rst = true ∧ t = hardwareReset p s) ∨
    (p.rst = false ∧
      ((driveSbox p s).phase = .idle ∧ p.cmdValid = false ∧
          t = { driveSbox p s with held := none } ∨
        (driveSbox p s).phase = .idle ∧ p.cmdValid = true ∧
          acceptEdge p (driveSbox p s) = .next t ∨
        (∃ cw n, (driveSbox p s).phase = .busy cw n ∧
          busyEdge p cw n { driveSbox p s with held := offered p } = .next t) ∨
        (driveSbox p s).phase = .responding ∧ p.rspReady = true ∧
          t = { driveSbox p s with phase := .idle, held := offered p } ∨
        (driveSbox p s).phase = .responding ∧ p.rspReady = false ∧
          t = { driveSbox p s with held := offered p }))) := by
  unfold clockEdge at h
  split at h
  · exact absurd h (by simp)
  · next hh =>
    refine ⟨by simpa using hh, ?_⟩
    split at h
    · next hr => exact .inl ⟨hr, by simpa using h.symm⟩
    · next hr =>
      refine .inr ⟨by simpa using hr, ?_⟩
      unfold runEdge at h
      split at h
      · next hp =>
        split at h
        · next hv => exact .inr (.inl ⟨hp, hv, h⟩)
        · next hv => exact .inl ⟨hp, by simpa using hv, by simpa using h.symm⟩
      · next cw n hp => exact .inr (.inr (.inl ⟨cw, n, hp, h⟩))
      · next hp =>
        split at h
        · next hr => exact .inr (.inr (.inr (.inl ⟨hp, hr, by simpa using h.symm⟩)))
        · next hr => exact .inr (.inr (.inr (.inr ⟨hp, by simpa using hr, by simpa using h.symm⟩)))

end Sys2Proof.Machine
end

