-- ==== Sys2Proof/Laws/PerInstr.lean ====
section
/-! SUPPORT. One lemma per command: the word a well-formed command is encoded in matches the command's row of
the table (30_encoding.md R87). -/

namespace Sys2Proof.Laws

/-- The encoded word meets the row's match under its mask (R87). -/
def TableRow.Statement (i : Instr) : Prop :=
  i.wellFormed = true → (encode i).1 &&& (tableRow i).2 = (tableRow i).1

theorem TableRow.nop : TableRow.Statement .nop := fun _ => by decide

theorem TableRow.reset : TableRow.Statement .reset := fun _ => by decide

theorem TableRow.write (nb : BitVec 3) (dw : Word) : TableRow.Statement (.write nb dw) := by
  have all : ∀ n : BitVec 3,
      (0x00000002#32 ||| (n.setWidth 32 <<< 4)) &&& 0xFFFFFF8F#32 = 0x00000002#32 := by decide
  exact fun _ => all nb

theorem TableRow.sum : TableRow.Statement .sum := fun _ => by decide

theorem TableRow.rddig (idx : BitVec 3) : TableRow.Statement (.rddig idx) := by
  revert idx
  simp only [TableRow.Statement, encode, tableRow]
  decide

theorem TableRow.getbs : TableRow.Statement .getbs := fun _ => by decide

theorem TableRow.getsz : TableRow.Statement .getsz := fun _ => by decide

theorem TableRow.status : TableRow.Statement .status := fun _ => by decide

end Sys2Proof.Laws
end

