-- ==== Sys2Proof/Tests/Slice0.lean ====
section
/-! SUPPORT. Small tests with the values of 95_test_vectors.md, and, for each obligation that has hypotheses, a
state and operands that meet them (`witness_<obligation>`). -/

namespace Sys2Proof.Tests

open Sys2Proof.Machine

/-! ### Helpers -/

/-- The block I of 95_test_vectors.md: byte k is k. -/
def blockI : Block := Vector.ofFn fun i => BitVec.ofNat 8 i.val

/-- A block from a hexadecimal number, byte 0 first. -/
def blockOf (v : Nat) : Block := beBytes 32 v

/-- The responses of some commands from a state. -/
def answers (cs : List (Word × Word)) (s : State) : List Word :=
  responsesOf (cs.map fun c => Event.command c.1 c.2) s

/-- The reset state with the pins of the coming edges. -/
def driven (ps : List Pins) : State := { State.reset with inputs := ps }

/-- A command offered. -/
def offer (cw dw : Word) : Pins := { cmdValid := true, cmdWord := cw, cmdData := dw }

/-- A cipher call. -/
def someCall : CphCall := { key := blockI, pin := Vector.replicate 8 0x11#8 }

/-- A WRITE in flight with one call left, its request on the port. -/
def inFlight (req : Bool) (ps : List Pins) : State :=
  { State.reset with
    phase := .busy 0x00000042#32 3, cphTodo := [[someCall]], cphReq := req, inputs := ps }

/-- A response waiting. -/
def waiting (ps : List Pins) : State :=
  { State.reset with phase := .responding, rspWord := 0x00000020#32, inputs := ps }

/-! ### WellFormed: NB = 5, 6, 7 are refused, every other operand is legal (R82, R83) -/

theorem test_wellFormed_refuses_nb5 : (Instr.write 5#3 0x64636261#32).wellFormed = false := by
  decide

theorem test_wellFormed_refuses_nb7 : (Instr.write 7#3 0#32).wellFormed = false := by decide

theorem test_wellFormed_accepts_nb4_idx7 :
    (Instr.write 4#3 0#32).wellFormed = true ∧ (Instr.rddig 7#3).wellFormed = true := by decide

/-! ### Decode: the words of R87 written out bit by bit, and the words of V-EN -/

theorem test_decode_nop :
    decode 0b00000000000000000000000000000000#32 7#32 = .ok .nop := by decide

theorem test_decode_reset :
    decode 0b00000000000000000000000000000001#32 7#32 = .ok .reset := by decide

theorem test_decode_write3 :
    decode 0b00000000000000000000000000110010#32 0x00636261#32 =
      .ok (.write 3#3 0x00636261#32) := by decide

theorem test_decode_sum :
    decode 0b00000000000000000000000000000011#32 7#32 = .ok .sum := by decide

theorem test_decode_rddig5 :
    decode 0b00000000000000000000010100000100#32 7#32 = .ok (.rddig 5#3) := by decide

theorem test_decode_getbs :
    decode 0b00000000000000000000000000000101#32 7#32 = .ok .getbs := by decide

theorem test_decode_getsz :
    decode 0b00000000000000000000000000000110#32 7#32 = .ok .getsz := by decide

theorem test_decode_status :
    decode 0b00000000000000000000000000000111#32 7#32 = .ok .status := by decide

/-- V-EN-15 to V-EN-17. -/
theorem test_decode_badOp :
    [0x00000008#32, 0x0000000f#32, 0xffffffff#32].all (fun cw => decode cw 0#32 = .error .badOp) = true := by
  decide

/-- V-EN-18 to V-EN-21, V-EN-25 to V-EN-32. -/
theorem test_decode_badRsvd :
    [0x00000010#32, 0x00000011#32, 0x00000013#32, 0x80000003#32, 0x00000082#32,
      0x00000102#32, 0x00000852#32, 0x00000084#32, 0x00000804#32, 0x00001004#32, 0x000000f7#32,
      0x00000027#32].all (fun cw => decode cw 0#32 = .error .badRsvd) = true := by
  decide

/-- V-EN-22 to V-EN-24. -/
theorem test_decode_badNb :
    [0x00000052#32, 0x00000062#32, 0x00000072#32].all (fun cw => decode cw 0#32 = .error .badNb) = true := by
  decide

/-- The table's bit numbering: a WRITE with its data word in bits 63:32. -/
theorem test_decodeTableWord_write :
    decodeTableWord 64 0x6463626100000042 = some (.write 4#3 0x64636261#32) ∧
    decodeTableWord 32 0x00000052 = none := by decide

/-! ### The commands -/

/-- V-EN-1 to V-EN-14: each sent alone from reset. -/
theorem test_answers_from_reset :
    ([0x00000000#32, 0x00000001#32, 0x00000002#32, 0x00000012#32, 0x00000022#32, 0x00000032#32,
      0x00000042#32, 0x00000003#32, 0x00000004#32, 0x00000104#32, 0x00000704#32, 0x00000005#32,
      0x00000006#32, 0x00000007#32].flatMap fun cw => answers [(cw, 0x64636261#32)] State.reset) =
      [0#32, 0#32, 0#32, 1#32, 2#32, 3#32, 4#32, 1#32, 0#32, 0#32, 0#32, 0x20#32, 0x20#32,
        0#32] := by
  decide +kernel

/-- V-HC-3: STATUS with BLEN = 31, DVALID, ERR, LOVF = 1 and ECODE = 3. -/
theorem test_status_fields :
    statusWord { State.reset with
      b := List.replicate 31 0xaa#8, dvalid := true, err := true, lovf := true, ecode := 3#2 } =
      0x000031f7#32 := by decide

/-- V-SM-10: a WRITE that fills a block and leaves two bytes over. -/
theorem test_write_leaves_bytes_over :
    answers ([(0x00000042#32, 0x64636261#32), (0x00000007#32, 0#32)])
      { State.reset with b := List.replicate 30 0x61#8 } = [0x00000004#32, 0x00000020#32] := by
  decide +kernel

/-- V-SM-8: the counter wraps and sets LOVF; RESET clears it. -/
theorem test_counter_wraps :
    answers [(0x00000042#32, 0#32), (0x00000007#32, 0#32), (0x00000001#32, 0#32)]
      { State.reset with l := 0xffffffffffffff00#64, b := List.replicate 28 0#8 } =
      [0x00000004#32, 0x00000004#32, 0x00000000#32] := by
  decide +kernel

/-- V-SM-7: the carry out of bit 255 of Σ is dropped. -/
theorem test_checksum_drops_carry :
    checksumAdd (BitVec.allOnes 256) (Vector.replicate 32 0xff#8) =
      BitVec.ofNat 256 (2 ^ 256 - 2) := by decide +kernel

/-- V-SM-9: the length SUM forms with L = 2^64 − 256 and 31 bytes pending. -/
theorem test_length_does_not_wrap :
    (finalize { State.reset with
      l := 0xffffffffffffff00#64, b := List.replicate 31 0#8 }).l = 0xfffffffffffffff8#64 := by
  decide +kernel

/-- V-HC-4 and V-EX-2: DVALID is cleared by a WRITE, kept by an illegal word; D stays readable. -/
theorem test_dvalid_after_write_and_illegal :
    answers [(0x00000003#32, 0#32), (0x0000000f#32, 0#32), (0x00000012#32, 0x00000061#32),
      (0x00000007#32, 0#32)] State.reset =
      [0x00000001#32, 0x00001003#32, 0x00000001#32, 0x00001012#32] := by decide +kernel

/-- V-EX-1: the first cause is kept until RESET. -/
theorem test_first_cause_kept :
    answers [(0x00000008#32, 0#32), (0x00000010#32, 0#32), (0x00000072#32, 0#32),
      (0x00000007#32, 0#32), (0x00000001#32, 0#32)] State.reset =
      [0x00001002#32, 0x00001002#32, 0x00001002#32, 0x00001002#32, 0x00000000#32] := by
  decide +kernel

/-- The RDDIG words of V-L1-1. -/
theorem test_rddig_words :
    (List.range 8).map (fun i => digestWord
      (blockOf 0xce85b99cc46752fffee35cab9a7b0278abb4c2d2055cff685af4912c49490f8d)
      (BitVec.ofNat 3 i)) =
      [0x9cb985ce#32, 0xff5267c4#32, 0xab5ce3fe#32, 0x78027b9a#32, 0xd2c2b4ab#32, 0x68ff5c05#32,
        0x2c91f45a#32, 0x8d0f4949#32] := by decide +kernel

/-! ### The datapath: 95_test_vectors.md sections 2.1 to 2.3 -/

/-- V-BA-3. -/
theorem test_transA : transA blockI =
    blockOf 0x0808080808080808000102030405060708090a0b0c0d0e0f1011121314151617 := by decide +kernel

/-- V-BA-5. -/
theorem test_permP : permP blockI =
    blockOf 0x0008101801091119020a121a030b131b040c141c050d151d060e161e070f171f := by decide +kernel

/-- V-BA-7. -/
theorem test_chi : chi blockI =
    blockOf 0x0606000102030405060708090a0b0c0d0e0f101112131415161718191a1b1c1d := by decide +kernel

/-- V-KS-2, K3 and K4. -/
theorem test_keyGen :
    (keyGen blockI zeroBlock)[2] =
      blockOf 0xe7f700f71808fe09e70802f5e7f7fc0b180804f318f7fa0d18f706f1e708f80f ∧
    (keyGen blockI zeroBlock)[3] =
      blockOf 0xf7e7f700f71808fef7e70802f7e7f7fcf7180804f718f7faf718f706f7e708f8 := by
  decide +kernel

/-- V-CA-1: the third and fourth keys of SBlock of zeros, as the cipher is given them. -/
theorem test_roundCalls :
    (roundCall zeroBlock zeroBlock 2).key =
      blockOf 0x00ff00ffff00ff0000ffff00ff00000000ffffffff0000ff00ff0000ff00ffff ∧
    (roundCall zeroBlock zeroBlock 3).key =
      blockOf 0xff00ffff00ff00ffffff00ff000000ffffffffff0000ffffff0000ff00ffffff := by
  decide +kernel

/-- V-CA-1: where the four answers go in S, with a cipher that answers each round's table entry. -/
theorem test_sBlock_slots (enc : Encrypt)
    (h1 : encryptRound enc zeroBlock zeroBlock 0 = beBytes 8 0x12610be2a6c2fdc9)
    (h4 : encryptRound enc zeroBlock zeroBlock 3 = beBytes 8 0xa29c74d366b0b7f6) :
    (sBlock enc zeroBlock zeroBlock)[0] = 0xa2#8 ∧
    (sBlock enc zeroBlock zeroBlock)[31] = 0xc9#8 := by
  rw [getElem_sBlock, getElem_sBlock]
  exact ⟨(congrArg (·[0]) h4).trans (by decide), (congrArg (·[7]) h1).trans (by decide)⟩

/-! ### The assembler -/

/-- R93's syntax, with blanks, a hexadecimal operand and a comment. -/
theorem test_assemble_write :
    assembleText ("  WRITE 3, 0x00636261 ; abc".toList) =
      .ok [(0x00000032#32, 0x00636261#32)] := by decide +kernel

/-- V-L1-4's WRITEs from a quoted text (R94). -/
theorem test_assemble_writes :
    assembleText (("WRITES ".toList ++ [Char.ofNat 34]) ++ "message digest".toList ++
      [Char.ofNat 34]) =
      .ok [(0x00000042#32, 0x7373656d#32), (0x00000042#32, 0x20656761#32),
        (0x00000042#32, 0x65676964#32), (0x00000022#32, 0x00007473#32)] := by decide +kernel

/-- The listing of an illegal word (R95). -/
theorem test_disassemble_illegal :
    listingText (disassemble 0x00000072#32 0#32) =
      ".word 0x00000072, 0x00000000 ; illegal ECODE=3".toList := by decide +kernel

/-! ### Ports -/

/-- The step after `withFetchWord` accepts the word and runs it: GETBS answers 32 (R57, R172). -/
theorem test_step_runs_getbs : ∃ t, step (State.reset.withFetchWord 32 5) = .next t ∧
    t.rspWord = 0x00000020#32 ∧ t.phase = .busy 0x00000005#32 0 := ⟨_, rfl, by decide, by decide⟩

/-- rst wins over an offered command and abandons one in flight (R209, R230). -/
theorem test_rst_wins : ∃ t, step (inFlight true [{ offer 0x00000003#32 0#32 with rst := true }]) =
    .next t ∧ t.phase = .idle ∧ t.dvalid = false ∧ t.cphTodo = [] :=
  ⟨_, rfl, by decide, by decide, by decide⟩

/-- The first of two bytes goes out in the low lane of the port (R54). -/
theorem test_lanes : laneWord 32 [0x61#8, 0x62#8] = 0x00006261#32 := by decide

/-! ### Witnesses -/

theorem witness_DecodeEncodeRoundTrip :
    (Instr.write 4#3 0xffffffff#32).wellFormed = true ∧ (Instr.rddig 7#3).wellFormed = true := by
  decide

theorem witness_LegalWordIsItsEncoding :
    decode 0x00000042#32 0xffffffff#32 = .ok (.write 4#3 0xffffffff#32) := by decide

theorem witness_FirstFaultDecidesCause :
    8 ≤ (0x00000008#32 &&& 0x0000000F#32).toNat ∧
    ((0x00000017#32 &&& 0x0000000F#32).toNat < 8 ∧
      0x00000017#32 &&& reservedMask ((0x00000017#32 : Word).extractLsb' 0 4) ≠ 0#32) ∧
    ((0x00000052#32 : Word).extractLsb' 0 4 = 2#4 ∧ 0x00000052#32 &&& reservedMask 2#4 = 0#32 ∧
      4#3 < (0x00000052#32 : Word).extractLsb' 4 3) := by decide

theorem witness_OnlyWriteReadsTheDataWord :
    (∀ nb, decode 0x00000704#32 1#32 ≠ .ok (.write nb 1#32)) ∧
    ∀ nb, decode 0x00000052#32 1#32 ≠ .ok (.write nb 1#32) := by
  have h : decode 0x00000704#32 1#32 = .ok (.rddig 7#3) := by decide
  have g : decode 0x00000052#32 1#32 = .error .badNb := by decide
  simp [h, g]

theorem witness_WriteIgnoresUnusedLanes :
    ∀ k, k < (3#3).toNat → dataByte 0x00636261#32 k = dataByte 0xff636261#32 k := by decide

theorem witness_AssembleDisassembleRoundTrip :
    disassemble 0x00000008#32 1#32 = .illegal 0x00000008#32 1#32 .badOp ∧
    disassemble 0x00000032#32 1#32 = .command (.write 3#3 1#32) ∧ 3 < 4 ∧ 2 < (3#3).toNat ∧
    disassemble 0x00000000#32 7#32 = .command .nop ∧ ∀ nb w, Instr.nop ≠ .write nb w :=
  ⟨by decide, by decide, by decide, by decide, by decide, fun _ _ => Instr.noConfusion⟩

theorem witness_StatusReportsFields :
    ({ State.reset with b := List.replicate 31 0#8 } : State).b.length < 32 := by decide

theorem witness_RddigReadsDigestInOrder : 3 < 4 ∧ 4 * (7#3).toNat + 3 = 31 := by decide

theorem witness_ResetCommandRestores :
    ∃ t u, transact 0x00000001#32 0#32 { State.reset with err := true, ecode := 1#2 } = .next t ∧
      t.err = false ∧
      transact 0x00000001#32 0#32 { State.reset with lovf := true } = .next u ∧ u.lovf = false :=
  ⟨_, _, rfl, rfl, rfl, rfl⟩

theorem witness_WriteBuffersBytes :
    4#3 ≤ 4#3 ∧ ({ State.reset with b := List.replicate 27 0#8 } : State).b.length + (4#3).toNat
      < 32 := by decide

theorem witness_WriteAbsorbsFullBlock :
    4#3 ≤ 4#3 ∧ (List.replicate 31 0#8).length < 32 ∧
      32 ≤ (List.replicate 31 0#8).length + (4#3).toNat ∧
      32 ≤ (List.replicate 28 0#8).length + (4#3).toNat := by decide

theorem witness_WriteBeyondFourBytesIsIllegal : 4#3 < 5#3 ∧ 4#3 < 7#3 := by decide

theorem witness_WriteIsItsByteWrites : 0#3 ≤ 4#3 ∧ 4#3 ≤ 4#3 ∧ 4#3 ≠ 0#3 := by decide

theorem witness_SumWritesDigest :
    let s : State := { State.reset with b := List.replicate 31 1#8, l := 0xffffffffffffff00#64 }
    (s.b.length < 32 ∧ s.l.toNat % 256 = 0 ∧ s.sboxMoved = false) ∧
    State.reset.b.length < 32 ∧ State.reset.l.toNat % 256 = 0 ∧ State.reset.sboxMoved = false := by
  decide

/-- A SUM in flight and a waiting response, each with one edge of pins to come. -/
theorem witness_SboxMoveFreesDigests :
    let new : Sbox := { code := Config.sbox.code + 1 }
    let s : State := { State.reset with phase := .busy 0x00000003#32 0, inputs := [{ sbox := new }] }
    let w : State := waiting [{ sbox := some Config.sbox }]
    let r : State := { s with inputs := [{ rst := true }] }
    ({ State.reset with sboxMoved := true } : State).sboxMoved = true ∧
    s.inputs = [{ sbox := new }] ∧ new ≠ s.sbox ∧ (∃ t, step s = .next t) ∧
    s.phase = .busy 0x00000003#32 0 ∧ s.held = none ∧ s.phase ≠ .idle ∧
    w.inputs = [{ sbox := some w.sbox }] ∧ (∀ n, w.phase ≠ .busy 0x00000003#32 n) ∧
    w.held = none ∧ (∃ t, step w = .next t) ∧
    r.inputs = [{ rst := true }] ∧ r.held = none ∧ ({ rst := true } : Pins).rst = true := by
  have ne : ({ code := Config.sbox.code + 1 } : Sbox) ≠ Config.sbox := by
    intro h
    have := congrArg Sbox.code h
    simp at this
  intro new s w r
  refine ⟨rfl, rfl, ne, ?_, rfl, rfl, by simp [s], rfl, fun n => by simp [w, waiting], rfl, ?_, rfl,
    rfl, rfl⟩
  · rw [step_cons _ _ _ rfl, clockEdge_run _ _ (fun c h => by cases h) rfl]
    obtain ⟨x, m, d, f, e⟩ := driveSbox_frame { sbox := new }
      { State.reset with phase := .busy 0x00000003#32 0 }
    rw [show ({ s with inputs := [] } : State) =
      { State.reset with phase := .busy 0x00000003#32 0 } from rfl, e]
    rcases busyEdge_cases { sbox := new } 0x00000003#32 0 { State.reset with
        phase := .busy 0x00000003#32 0, sbox := x, sboxMoved := m, d := d, free := f } with
      ⟨c, h, _⟩ | ⟨_, ⟨_, h⟩ | ⟨_, h⟩⟩
    · cases h
    · exact ⟨_, h⟩
    · exact ⟨_, h⟩
  · rw [step_cons _ _ _ rfl, clockEdge_run _ _ (fun c h => by cases h) rfl]
    have h : driveSbox { sbox := some Config.sbox } (waiting []) = waiting [] := if_pos rfl
    rw [show ({ w with inputs := [] } : State) = waiting [] from rfl, h]
    exact ⟨_, rfl⟩

theorem witness_SumDoesNotChangeHashState :
    State.reset.sboxMoved = false ∧ 4#3 ≤ 4#3 ∧
    (∀ c ∈ [((0x00000002#32, 5#32) : Word × Word), (0x00000008#32, 0#32)],
      isReset c = false ∧ ∀ nb d, decode c.1 c.2 = .ok (.write nb d) → nb = 0#3) ∧
    ∃ t u, exec .sum State.reset = .next t ∧
      runCommands [(0x00000002#32, 5#32), (0x00000008#32, 0#32)] t = .next u := by
  have h : decode 0x00000002#32 5#32 = .ok (.write 0#3 5#32) := by decide
  have g : decode 0x00000008#32 0#32 = .error .badOp := by decide
  refine ⟨rfl, by decide, ?_, _, _, rfl, rfl⟩
  simp [isReset, h, g]

theorem witness_SumLengthDoesNotWrap :
    let s : State := { State.reset with b := List.replicate 31 1#8, l := 0xffffffffffffff00#64 }
    s.b.length < 32 ∧ s.l.toNat % 256 = 0 := by decide

theorem witness_FinalBlocksLayout :
    ([] : List Byte).length < 32 ∧ (List.replicate 31 1#8).length < 32 ∧
    0 < 32 - (List.replicate 31 1#8).length ∧ 23 < 24 ∧ 7 < 8 := by decide

theorem witness_CounterWrapSetsLovf :
    let s : State := { State.reset with l := 0xffffffffffffff00#64 }
    s.l.toNat % 256 = 0 ∧ 2 ^ 64 ≤ s.l.toNat + 256 := by decide

theorem witness_IllegalCommandEffect :
    decode 0x00000008#32 0#32 = .error .badOp ∧ decode 0x00000010#32 0#32 = .error .badRsvd ∧
    decode 0x00000072#32 0#32 = .error .badNb := by decide

theorem witness_ErrorIsSticky :
    ({ State.reset with err := true, ecode := 1#2 } : State).err = true ∧
    ∀ c ∈ [((0x00000010#32, 0#32) : Word × Word), (0x00000003#32, 0#32)], isReset c = false :=
  ⟨rfl, List.forall_mem_cons.2 ⟨by decide, List.forall_mem_singleton.2 (by decide)⟩⟩

theorem witness_ErrorDoesNotStopTheEngine :
    (Instr.write 4#3 0#32).wellFormed = true ∧ Instr.sum.wellFormed = true := by decide

theorem witness_DvalidFollowsTheMessage :
    let s : State := { State.reset with held := some (0x00000003#32, 0#32) }
    let p : Pins := { offer 0x00000003#32 0#32 with rst := true }
    p.rst = true ∧ s.held = some (0x00000003#32, 0#32) ∧ offered p = s.held := by decide

theorem witness_WritersOfEachRegister :
    (∀ nb, decode 0x00000003#32 0#32 ≠ .ok (.write nb 0#32)) ∧
    decode 0x00000003#32 0#32 ≠ .ok .reset ∧
    decode 0x00000042#32 0#32 ≠ .ok .sum ∧ decode 0x00000042#32 0#32 ≠ .ok .reset := by decide

theorem witness_ReadsHaveNoSideEffect :
    Instr.status ∈ [Instr.nop, .status, .getbs, .getsz] ∧
    ∃ idx, Instr.rddig 7#3 = .rddig idx := ⟨by decide, _, rfl⟩

theorem witness_ReversalsAreInvolutions : 31 < 32 ∧ 7 < 8 := by decide

theorem witness_TransAByBytesAndLimbs :
    7 < 8 ∧ 23 < 24 ∧
    ∃ limb : Nat → List Byte, ∀ k, limb k = (blockI.toList.drop (32 - 8 * k)).take 8 :=
  ⟨by decide, by decide, _, fun _ => rfl⟩

theorem witness_PermPTransposes : 7 < 8 ∧ 3 < 4 ∧ 31 < 32 := by decide

theorem witness_ChiByWords :
    ∃ word : Nat → List Byte, ∀ k, word k = (blockI.toList.drop (32 - 2 * k)).take 2 :=
  ⟨_, fun _ => rfl⟩

theorem witness_SBlockSlots :
    1 ≤ 4 ∧ 7 < 8 ∧ (∀ k (_ : k < 8),
      (reverse8 (quarterOf blockI 0))[k] = blockI[32 - 8 * 1 + (7 - k)]'(by omega)) ∧
    ∀ k (_ : k < 8),
      (reverse8 (quarterOf blockI 3))[k] = blockI[32 - 8 * 4 + (7 - k)]'(by omega) := by
  decide +kernel

theorem witness_SplitOfMessageCannotBeSeen :
    (∀ w ∈ [((2#3, 0x00006261#32) : BitVec 3 × Word), (1#3, 0x00000063#32)], w.1 ≤ 4#3) ∧
    (∀ w ∈ [((3#3, 0xff636261#32) : BitVec 3 × Word), (0#3, 1#32)], w.1 ≤ 4#3) ∧
    (([((2#3, 0x00006261#32) : BitVec 3 × Word), (1#3, 0x00000063#32)].flatMap fun w =>
      dataBytes w.1 w.2) =
      [((3#3, 0xff636261#32) : BitVec 3 × Word), (0#3, 1#32)].flatMap fun w =>
        dataBytes w.1 w.2) ∧ State.reset.sboxMoved = false :=
  ⟨by simp, by simp, by decide, rfl⟩

theorem witness_SumOfMessageIsGost :
    ∀ w ∈ [((4#3, 0x7373656d#32) : BitVec 3 × Word), (0#3, 0#32), (1#3, 0x00000063#32)],
      w.1 ≤ 4#3 := by simp

theorem witness_CleanFlagsMeanDigestOfMessage :
    ∃ t, runCommands [(0x00000012#32, 0x00000061#32), (0x00000003#32, 0#32)] State.reset =
      .next t ∧ t.err = false ∧ t.dvalid = true := ⟨_, rfl, rfl, rfl⟩

theorem witness_StepRunsDecodedCommand :
    let p := offer 0x00000012#32 0x00000061#32
    let q := offer 0x0000000f#32 0#32
    (driven [p]).inputs = [p] ∧ (driven [p]).phase = .idle ∧ p.rst = false ∧
    p.cmdValid = true ∧ (driven [p]).held = none ∧ p.sbox = none ∧
    decode p.cmdWord p.cmdData = .ok (.write 1#3 0x00000061#32) ∧
    (∃ t, exec (.write 1#3 0x00000061#32) (driveSbox p { driven [p] with inputs := [] }) =
      .next t) ∧
    (driven [q]).held = none ∧ decode q.cmdWord q.cmdData = .error .badOp :=
  ⟨rfl, rfl, rfl, rfl, rfl, rfl, by decide, ⟨_, rfl⟩, rfl, by decide⟩

theorem witness_HardwareResetAbandonsEverything :
    let s : State :=
      { inFlight true [{ rst := true }] with held := some (0x00000003#32, 0#32) }
    (inFlight true [{ rst := true }]).inputs = [{ rst := true }] ∧
    ({ rst := true } : Pins).rst = true ∧ (inFlight true [{ rst := true }]).held = none ∧
    s.inputs = [{ rst := true }] ∧ offered { rst := true } ≠ some (0x00000003#32, 0#32) :=
  ⟨rfl, rfl, rfl, rfl, by decide⟩

theorem witness_ResetStateElements : ({} : Pins).rst = false := rfl

theorem witness_StepKeepsInvariant : Inv State.reset ∧ ∃ t, step State.reset = .next t :=
  ⟨⟨by decide, by decide, by decide, by decide, fun _ => ⟨rfl, rfl⟩, by decide⟩, _, rfl⟩

theorem witness_PortRunsAreCommandSequences :
    sboxSteady 1 (driven [offer 0x00000003#32 0#32]) ∧
    (∃ t, runEdges 1 (driven [offer 0x00000003#32 0#32]) = .next t) ∧
    eventsOf 1 (driven [offer 0x00000003#32 0#32]) = [.command 0x00000003#32 0#32] :=
  ⟨by simp [sboxSteady, driven, offer], ⟨_, rfl⟩, rfl⟩

theorem witness_OneResponsePerCommandInOrder :
    let s := waiting [{ rspReady := true }, offer 0x00000005#32 0#32]
    sboxSteady 2 s ∧ noReset 2 s ∧ (∃ t, runEdges 2 s = .next t) ∧
    eventsOf 2 s = [.command 0x00000005#32 0#32] ∧ deliveredOf 2 s = [0x00000020#32] :=
  ⟨by simp [sboxSteady, waiting, offer], by simp [noReset, waiting, offer], ⟨_, rfl⟩, rfl, rfl⟩

theorem inFlight_inv (req : Bool) (ps : List Pins) : Inv (inFlight req ps) :=
  ⟨by simp [inFlight, State.reset], by simp [inFlight, State.reset],
    by simp [inFlight, State.reset], by simp [inFlight],
    fun h => absurd rfl (h 0x00000042#32 3), by simp [inFlight]⟩

theorem witness_ServedCommandCompletes :
    Inv (inFlight true []) ∧ (inFlight true []).phase = .busy 0x00000042#32 3 :=
  ⟨inFlight_inv true [], rfl⟩

theorem witness_ResponseHeldUntilTaken :
    let s := waiting [{ rspReady := true }]
    s.phase = .responding ∧ s.inputs = [{ rspReady := true }] ∧
    ({ rspReady := true } : Pins).rst = false ∧ ({ rspReady := true } : Pins).sbox = none ∧
    (∀ c, s.held = some c → offered { rspReady := true } = some c) ∧
    (waiting [{}]).inputs = [{}] ∧ ({} : Pins).rspReady = false :=
  ⟨rfl, rfl, rfl, rfl, by intro c h; simp [waiting, State.reset] at h, rfl, rfl⟩

/-- An offer withdrawn while rst is high is refused too (R237). -/
theorem test_withdrawn_under_rst :
    step { driven [{ rst := true }] with held := some (0x00000003#32, 0#32) } =
      .refused .commandNotHeld := rfl

theorem witness_CommandNotHeldIsRefused :
    let s : State := { driven [{}] with held := some (0x00000003#32, 0#32) }
    s.inputs = [{}] ∧ s.held = some (0x00000003#32, 0#32) ∧
    offered {} ≠ some (0x00000003#32, 0#32) ∧
    ∃ t, step (waiting [offer 0x00000003#32 0#32]) = .next t ∧
      (waiting [offer 0x00000003#32 0#32]).phase ≠ .idle :=
  ⟨rfl, rfl, by decide, _, rfl, by decide⟩

theorem witness_IdleEngineKeepsItsState :
    (driven [{}, {}]).phase = .idle ∧ (driven [{}, {}]).held = none ∧
    ∀ p ∈ (driven [{}, {}]).inputs.take 2, p.rst = false ∧ p.cmdValid = false ∧ p.sbox = none :=
  ⟨rfl, rfl, by simp [driven]⟩

theorem witness_CipherRequestProtocol :
    let right : Pins := { cphAck := true, cphOut := answerOwed (inFlight true []) }
    let wrong : Pins := { cphAck := true, cphOut := ~~~(answerOwed (inFlight true [])) }
    (∀ req ps, Inv (inFlight req ps) ∧ (inFlight req ps).inputs = ps ∧
      (inFlight req ps).phase = .busy 0x00000042#32 3 ∧
      (inFlight req ps).cphTodo ≠ [] ∧ (inFlight req ps).sboxMoved = false ∧
      (inFlight req ps).held = none ∧ (inFlight req ps).cphReq = req) ∧
    right.rst = false ∧ right.sbox = none ∧ wrong.rst = false ∧ wrong.sbox = none ∧
    right.cphOut =
      laneWord 64 (Config.cipher Config.sbox someCall.key someCall.pin).toList ∧
    wrong.cphOut ≠
      laneWord 64 (Config.cipher Config.sbox someCall.key someCall.pin).toList := by
  have owed : answerOwed (inFlight true []) =
      laneWord 64 (Config.cipher Config.sbox someCall.key someCall.pin).toList := by
    simp [answerOwed, currentCall, inFlight, State.reset, State.encrypt, Nat.mod_one]
  refine ⟨fun req ps => ⟨inFlight_inv req ps, rfl, rfl, by simp [inFlight], rfl, rfl, rfl⟩,
    rfl, rfl, rfl, rfl, owed, ?_⟩
  rw [← owed]
  intro h
  have := congrArg (·.getLsbD 0) h
  simp at this

theorem witness_CipherWorkOfEachCommand :
    (Instr.write 4#3 0#32).wellFormed = true ∧
    ({ State.reset with b := List.replicate 28 0#8 } : State).b.length < 32 ∧
    Instr.sum.wellFormed = true := by decide

end Sys2Proof.Tests
end

