-- ==== Sys2Proof/Proofs/PortRefinement.lean ====
section
/-! PROOF. Clock edges refine transitions: every operation of the engine takes states with the same engine to
states with the same engine, every edge is at most one event and otherwise moves only the handshake and the
cipher port, and so a run of edges is the sequence of its events (R12, R55, R58, R60, R233). -/

namespace Sys2Proof.Machine

/-! ### States with the same engine -/

theorem SameEngine.refl (s : State) : SameEngine s s := by
  constructor <;> rfl

theorem SameEngine.trans {s t u : State} (st : SameEngine s t) (tu : SameEngine t u) :
    SameEngine s u where
  h := st.h.trans tu.h
  l := st.l.trans tu.l
  sigma := st.sigma.trans tu.sigma
  b := st.b.trans tu.b
  d := st.d.trans tu.d
  dvalid := st.dvalid.trans tu.dvalid
  err := st.err.trans tu.err
  ecode := st.ecode.trans tu.ecode
  lovf := st.lovf.trans tu.lovf
  rspWord := st.rspWord.trans tu.rspWord
  sbox := st.sbox.trans tu.sbox
  sboxMoved := st.sboxMoved.trans tu.sboxMoved
  free := st.free.trans tu.free

/-- The handshake, the cipher port and the pins to come are not the engine. -/
theorem sameEngine_port (s : State) (phase : Phase) (todo : List (List CphCall)) (req : Bool)
    (inputs : List Pins) (held : Option (Word × Word)) :
    SameEngine { s with
      phase := phase, cphTodo := todo, cphReq := req, inputs := inputs, held := held } s := by
  constructor <;> rfl

/-! ### The operations take states with the same engine to states with the same engine -/

theorem respond_sameEngine {s t : State} (e : SameEngine s t) (rw : Word) :
    SameEngine (respond rw s) (respond rw t) := { e with rspWord := rfl }

theorem respondStatus_sameEngine {s t : State} (e : SameEngine s t) :
    SameEngine (respondStatus s) (respondStatus t) :=
  { e with rspWord := statusWord_congr t s e.b e.dvalid e.err e.ecode e.lovf }

theorem raiseIllegal_sameEngine {s t : State} (e : SameEngine s t) (c : Cause) :
    SameEngine (raiseIllegal c s) (raiseIllegal c t) :=
  respondStatus_sameEngine { e with err := rfl, ecode := by simp only [e.err, e.ecode] }

theorem clearEngine_sameEngine {s t : State} (e : SameEngine s t) :
    SameEngine (clearEngine s) (clearEngine t) := by
  constructor <;> simp [e.rspWord, e.sbox, e.free]

theorem absorbBlock_sameEngine {s t : State} (e : SameEngine s t) (raw : Block) :
    SameEngine (absorbBlock raw s) (absorbBlock raw t) :=
  { e with
    h := by simp [State.encrypt, e.h, e.sbox]
    l := by simp [e.l]
    sigma := by simp [e.sigma]
    b := rfl
    lovf := by simp [e.l, e.lovf] }

theorem appendByte_sameEngine {s t : State} (e : SameEngine s t) (x : Byte) :
    SameEngine (appendByte s x) (appendByte t x) := by
  unfold appendByte
  rw [e.b]
  split
  · exact absorbBlock_sameEngine e _
  · exact { e with b := rfl }

theorem appendBytes_sameEngine {s t : State} (e : SameEngine s t) (bs : List Byte) :
    SameEngine (appendBytes s bs) (appendBytes t bs) := by
  induction bs generalizing s t with
  | nil => exact e
  | cons x xs ih => exact ih (appendByte_sameEngine e x)

theorem setDvalid_sameEngine {s t : State} (e : SameEngine s t) {v w : Bool} (hv : v = w)
    (todo todo' : List (List CphCall)) :
    SameEngine { s with dvalid := v, cphTodo := todo } { t with dvalid := w, cphTodo := todo' } :=
  { e with dvalid := hv }

theorem setDigest_sameEngine {s t : State} (e : SameEngine s t) {d d' : Block} {f f' : Nat}
    (hd : d = d') (hf : f = f') :
    SameEngine { s with d := d, free := f } { t with d := d', free := f' } :=
  { e with d := hd, free := hf }

theorem writeDigest_sameEngine {s t : State} (e : SameEngine s t) (hFinal : Block) :
    SameEngine (writeDigest hFinal s) (writeDigest hFinal t) := by
  cases hm : t.sboxMoved with
  | false =>
    rw [writeDigest_steady _ _ hm, writeDigest_steady _ _ (e.sboxMoved.trans hm)]
    exact setDigest_sameEngine e rfl e.free
  | true =>
    rw [writeDigest_moved _ _ hm, writeDigest_moved _ _ (e.sboxMoved.trans hm)]
    exact setDigest_sameEngine e (by rw [e.free]) (by rw [e.free])

/-! ### Commands and events -/

/-- Both outcomes are next states, with the same engine. -/
def NextSameEngine (o o' : Host.Outcome State Fault Refusal) : Prop :=
  ∃ s t, o = .next s ∧ o' = .next t ∧ SameEngine s t

theorem SameEngine.next {s t : State} (e : SameEngine s t) : NextSameEngine (.next s) (.next t) :=
  ⟨s, t, rfl, rfl, e⟩

theorem execWrite_sameEngine {s t : State} (e : SameEngine s t) (nb : BitVec 3) (dw : Word) :
    NextSameEngine (execWrite nb dw s) (execWrite nb dw t) := by
  by_cases hn : nb ≤ 4#3
  · have ea := appendBytes_sameEngine e (dataBytes nb dw)
    rw [execWrite_legal _ _ _ hn, execWrite_legal _ _ _ hn]
    exact (respond_sameEngine (setDvalid_sameEngine ea (by rw [ea.dvalid]) _ _) _).next
  · simp only [execWrite, hn, if_false]
    exact (raiseIllegal_sameEngine e _).next

theorem execSum_sameEngine {s t : State} (e : SameEngine s t) :
    NextSameEngine (execSum s) (execSum t) := by
  have ew := writeDigest_sameEngine e (finalize s).h
  simp only [execSum, ← finalize_congr t s e.h e.l e.sigma e.b e.sbox] at ew ⊢
  exact (respondStatus_sameEngine (setDvalid_sameEngine ew rfl _ _)).next

/-- A command does the same in states with the same engine (R55). -/
theorem exec_sameEngine {s t : State} (e : SameEngine s t) (i : Instr) :
    NextSameEngine (exec i s) (exec i t) := by
  cases i with
  | nop => exact (respondStatus_sameEngine e).next
  | reset => exact (respondStatus_sameEngine (clearEngine_sameEngine e)).next
  | write nb dw => exact execWrite_sameEngine e nb dw
  | sum => exact execSum_sameEngine e
  | rddig idx =>
    have hw : digestWord s.d idx = digestWord t.d idx := by rw [e.d]
    simp only [exec, execRddig, hw]
    exact (respond_sameEngine e _).next
  | getbs => exact (respond_sameEngine e _).next
  | getsz => exact (respond_sameEngine e _).next
  | status => exact (respondStatus_sameEngine e).next

/-- A transaction sees nothing of the handshake, the cipher port or the pins to come (R55, R60). -/
theorem transact_sameEngine {s t : State} (e : SameEngine s t) (cw dw : Word) :
    NextSameEngine (transact cw dw s) (transact cw dw t) := by
  unfold transact
  cases decode cw dw with
  | ok i => exact exec_sameEngine e i
  | error c => exact (raiseIllegal_sameEngine e c).next

theorem applyEvent_sameEngine {s t : State} (e : SameEngine s t) (ev : Event) :
    NextSameEngine (applyEvent ev s) (applyEvent ev t) := by
  cases ev with
  | command cw dw => exact transact_sameEngine e cw dw
  | hardReset => exact SameEngine.next { clearEngine_sameEngine e with rspWord := rfl }

theorem applyEvents_cons_next {s t : State} {ev : Event} (evs : List Event)
    (h : applyEvent ev s = .next t) : applyEvents (ev :: evs) s = applyEvents evs t := by
  simp only [applyEvents, h]

theorem applyEvents_sameEngine {s t : State} (e : SameEngine s t) (evs : List Event) :
    NextSameEngine (applyEvents evs s) (applyEvents evs t) := by
  induction evs generalizing s t with
  | nil => exact e.next
  | cons ev evs ih =>
    obtain ⟨s', t', hs, ht, e'⟩ := applyEvent_sameEngine e ev
    rw [applyEvents_cons_next evs hs, applyEvents_cons_next evs ht]
    exact ih e'

theorem applyEvents_append {s t : State} {evs : List Event} (evs' : List Event)
    (h : applyEvents evs s = .next t) : applyEvents (evs ++ evs') s = applyEvents evs' t := by
  induction evs generalizing s with
  | nil =>
    cases h
    rfl
  | cons ev evs ih =>
    obtain ⟨s', _, hs, -⟩ := applyEvent_sameEngine (SameEngine.refl s) ev
    rw [applyEvents_cons_next _ hs] at h
    rw [List.cons_append, applyEvents_cons_next _ hs]
    exact ih h

/-! ### What one edge does to the engine -/

/-- An edge in flight moves only the handshake and the cipher port (R60, R145). -/
theorem busyEdge_port {p : Pins} {cw : Word} {n : Nat} {s t : State}
    (h : busyEdge p cw n s = .next t) :
    ∃ phase todo req, t = { s with phase := phase, cphTodo := todo, cphReq := req } := by
  rcases busyEdge_cases p cw n s with
    ⟨c, -, ⟨-, e⟩ | ⟨-, -, e⟩ | ⟨-, -, -, e⟩ | ⟨-, -, -, e⟩⟩ | ⟨-, ⟨-, e⟩ | ⟨-, e⟩⟩ <;>
    rw [e] at h <;> cases h
  · exact ⟨_, s.cphTodo, _, rfl⟩
  · exact ⟨_, s.cphTodo, s.cphReq, rfl⟩
  · exact ⟨_, _, _, rfl⟩
  · exact ⟨_, s.cphTodo, s.cphReq, rfl⟩
  · exact ⟨_, s.cphTodo, s.cphReq, rfl⟩

/-- The edge at which a command transfers is its transaction, with the handshake moved (R57, log 1). -/
theorem acceptEdge_next {p : Pins} {s t : State} (h : acceptEdge p s = .next t) :
    ∃ u, transact p.cmdWord p.cmdData s = .next u ∧
      t = { u with phase := .busy p.cmdWord 0, held := none } := by
  obtain ⟨u, _, hu, -⟩ := transact_sameEngine (SameEngine.refl s) p.cmdWord p.cmdData
  simp only [acceptEdge, hu, Host.Outcome.next.injEq] at h
  exact ⟨u, hu, h.symm⟩

/-- SBOX steady, an edge is a reset, or a transaction, or moves only the handshake and the cipher port. -/
theorem clockEdge_event {p : Pins} {s t : State} (sbox : p.sbox = none)
    (h : clockEdge p s = .next t) :
    (p.rst = true ∧ t = hardwareReset p s) ∨
    (p.rst = false ∧ (cmdReady p s && p.cmdValid) = true ∧
      ∃ u, transact p.cmdWord p.cmdData s = .next u ∧
        t = { u with phase := .busy p.cmdWord 0, held := none }) ∨
    (p.rst = false ∧ (cmdReady p s && p.cmdValid) = false ∧ ∃ phase todo req held,
      t = { s with phase := phase, cphTodo := todo, cphReq := req, held := held }) := by
  obtain ⟨-, hc⟩ := clockEdge_next p s t h
  rw [driveSbox_steady p s sbox] at hc
  rcases hc with hrst | ⟨hrst, ⟨-, hv, ht⟩ | ⟨hp, hv, ha⟩ | ⟨cw, n, hp, hb⟩ | ⟨hp, -, ht⟩ |
    ⟨hp, -, ht⟩⟩
  · exact .inl hrst
  · exact .inr (.inr ⟨hrst, by simp [hv], s.phase, s.cphTodo, s.cphReq, _, ht⟩)
  · exact .inr (.inl ⟨hrst, by simp [cmdReady, hp, hrst, hv], acceptEdge_next ha⟩)
  · obtain ⟨phase, todo, req, ht⟩ := busyEdge_port hb
    exact .inr (.inr ⟨hrst, by simp [cmdReady, hp], phase, todo, req, _, ht⟩)
  · exact .inr (.inr ⟨hrst, by simp [cmdReady, hp], _, s.cphTodo, s.cphReq, _, ht⟩)
  · exact .inr (.inr ⟨hrst, by simp [cmdReady, hp], s.phase, s.cphTodo, s.cphReq, _, ht⟩)

/-- An edge takes its own pins off the list of those to come, SBOX steady. -/
theorem step_inputs {s t : State} (sbox : (nextPins s).sbox = none) (h : step s = .next t) :
    t.inputs = s.inputs.tail := by
  rcases clockEdge_event sbox h with ⟨-, rfl⟩ | ⟨-, -, u, hu, rfl⟩ | ⟨-, -, _, _, _, _, rfl⟩
  · rfl
  · obtain ⟨-, -, -, hi, -⟩ := transact_frame _ _ _ _ hu
    exact hi
  · rfl

/-- The engine after hardware reset is the one after its event (R230, log 4), SBOX steady. -/
theorem hardwareReset_sameEngine {p : Pins} {s t : State} (sbox : p.sbox = none)
    (e : SameEngine s t) :
    SameEngine (hardwareReset p s) { clearEngine t with rspWord := 0#32 } := by
  constructor <;> simp [sbox, e.sbox, e.free]

/-- One edge is its event, or none, as a transition of the engine, SBOX steady (R12, R55). -/
theorem step_refines_nextEvent {s t : State} (sbox : (nextPins s).sbox = none)
    (h : step s = .next t) :
    ∃ u, applyEvents (nextEvent s) s = .next u ∧ SameEngine t u := by
  have tailOff : SameEngine { s with inputs := s.inputs.tail } s :=
    sameEngine_port s s.phase s.cphTodo s.cphReq _ s.held
  rcases clockEdge_event sbox h with
    ⟨hrst, rfl⟩ | ⟨hrst, transfers, u, hu, rfl⟩ | ⟨hrst, waits, phase, todo, req, held, rfl⟩
  · have he : nextEvent s = [.hardReset] := by simp [nextEvent, hrst]
    rw [he]
    exact ⟨_, rfl, hardwareReset_sameEngine sbox tailOff⟩
  · replace transfers : (cmdReady (nextPins s) s && (nextPins s).cmdValid) = true := transfers
    have he : nextEvent s = [.command (nextPins s).cmdWord (nextPins s).cmdData] := by
      simp only [nextEvent, hrst, transfers, if_true, Bool.false_eq_true, if_false]
    obtain ⟨u', v, hu', hcmd, e⟩ :=
      applyEvent_sameEngine tailOff (.command (nextPins s).cmdWord (nextPins s).cmdData)
    obtain rfl : u = u' := by simpa [applyEvent, hu] using hu'
    rw [he, applyEvents_cons_next [] hcmd]
    exact ⟨v, rfl, (sameEngine_port u _ u.cphTodo u.cphReq u.inputs _).trans e⟩
  · replace waits : (cmdReady (nextPins s) s && (nextPins s).cmdValid) = false := waits
    have he : nextEvent s = [] := by
      simp only [nextEvent, hrst, waits, Bool.false_eq_true, if_false]
    rw [he]
    exact ⟨s, rfl, sameEngine_port s phase todo req s.inputs.tail held⟩

/-! ### Runs of edges -/

theorem sboxSteady_head {n : Nat} {s : State} (h : sboxSteady (n + 1) s) :
    (nextPins s).sbox = none := by
  unfold nextPins
  cases hi : s.inputs with
  | nil => rfl
  | cons p rest => exact h p (by simp [hi])

theorem sboxSteady_step {n : Nat} {s t : State} (h : sboxSteady (n + 1) s)
    (hst : step s = .next t) : sboxSteady n t := by
  intro p hp
  rw [step_inputs (sboxSteady_head h) hst] at hp
  cases hi : s.inputs with
  | nil => simp [hi] at hp
  | cons q rest =>
    rw [hi] at hp
    exact h p (by rw [hi]; exact .tail q hp)

theorem runEdges_succ {n : Nat} {s t : State} (h : runEdges (n + 1) s = .next t) :
    ∃ s', step s = .next s' ∧ runEdges n s' = .next t := by
  simp only [runEdges] at h
  cases hs : step s with
  | next s' => exact ⟨s', rfl, by simpa only [hs] using h⟩
  | fault r => cases r
  | refused r => simp [hs] at h

theorem eventsOf_succ {n : Nat} {s s' : State} (h : step s = .next s') :
    eventsOf (n + 1) s = nextEvent s ++ eventsOf n s' := by
  simp only [eventsOf, h]

/-- Settles O53, by induction on the edges: the first edge is its event, and the events after it do the same to
the state it leaves as to the one its event leaves. -/
theorem portRunsAreCommandSequences : Obligations.PortRunsAreCommandSequences := by
  intro n
  induction n with
  | zero =>
    intro s t _ hrun
    cases hrun
    exact ⟨s, rfl, SameEngine.refl s⟩
  | succ n ih =>
    intro s t hsteady hrun
    obtain ⟨s', hstep, hrest⟩ := runEdges_succ hrun
    obtain ⟨u, hu, tu⟩ := ih s' t (sboxSteady_step hsteady hstep) hrest
    obtain ⟨v, hv, sv⟩ := step_refines_nextEvent (sboxSteady_head hsteady) hstep
    obtain ⟨u', w, hu', hw, uw⟩ := applyEvents_sameEngine sv (eventsOf n s')
    obtain rfl : u = u' := by simpa [hu] using hu'
    refine ⟨w, ?_, tu.trans uw⟩
    rw [eventsOf_succ hstep, applyEvents_append _ hv, hw]

end Sys2Proof.Machine
end

