-- ==== Sys2Proof/Proofs/StateElements.lean ====
section
/-! PROOF. The elements of the state (10_state.md): what a command may do to each of them, the invariant at
reset and over every edge, and the hash state as a function of the message (R22 to R32, R42). -/

namespace Sys2Proof.Machine

/-! ### What a transaction can do -/

theorem assigned_write {cw dw : Word} {nb : BitVec 3} {d : Word}
    (h : assigned cw dw = some (.write nb d)) : opField cw = 2#4 ∧ nb = nbField cw ∧ d = dw := by
  unfold assigned at h
  split at h <;> cases h
  next hop => exact ⟨BitVec.eq_of_toNat_eq hop, rfl, rfl⟩

/-- A decoded WRITE carries the data word and at most four bytes (R82, R85, R88). -/
theorem decode_write {cw dw : Word} {nb : BitVec 3} {d : Word}
    (h : decode cw dw = .ok (.write nb d)) : d = dw ∧ nb ≤ 4#3 := by
  unfold decode at h
  split at h
  · cases h
  · next ha =>
    split_ifs at h with _ hnb
    cases h
    obtain ⟨hop, rfl, rfl⟩ := assigned_write ha
    exact ⟨rfl, BitVec.not_lt.1 fun hlt => hnb ⟨hop, hlt⟩⟩

/-- The commands that only answer (R63). -/
def isRead : Instr → Bool
  | .nop | .rddig _ | .getbs | .getsz | .status => true
  | _ => false

/-- What decoded words do to the engine: the next states of a transaction, by what the words decode to. -/
inductive CommandEffect (s : State) : Except Cause Instr → State → Prop where
  | illegal (c : Cause) : CommandEffect s (.error c) (raiseIllegal c s)
  | read (i : Instr) (rw : Word) (hi : isRead i = true) : CommandEffect s (.ok i) (respond rw s)
  | reset : CommandEffect s (.ok .reset) (respondStatus (clearEngine s))
  | write (nb : BitVec 3) (dw : Word) (legal : nb ≤ 4#3) : CommandEffect s (.ok (.write nb dw))
      (respond (nb.setWidth 32) { appendBytes s (dataBytes nb dw) with
        dvalid := if nb = 0#3 then (appendBytes s (dataBytes nb dw)).dvalid else false })
  | sum : CommandEffect s (.ok .sum) (respondStatus { writeDigest (finalize s).h s with
      dvalid := true, cphTodo := s.cphTodo ++ (finalize s).calls })

/-- Every transaction completes, with the effect of what its words decode to (R55, R200). -/
theorem transact_effect (cw dw : Word) (s : State) :
    ∃ t, transact cw dw s = .next t ∧ CommandEffect s (decode cw dw) t := by
  unfold transact
  cases hd : decode cw dw with
  | error c => exact ⟨_, rfl, .illegal c⟩
  | ok i =>
    cases i with
    | nop => exact ⟨_, rfl, .read _ _ rfl⟩
    | reset => exact ⟨_, rfl, .reset⟩
    | write nb d =>
      have legal := (decode_write hd).2
      exact ⟨_, execWrite_legal nb d s legal, .write nb d legal⟩
    | sum => exact ⟨_, rfl, .sum⟩
    | rddig idx => exact ⟨_, rfl, .read _ _ rfl⟩
    | getbs => exact ⟨_, rfl, .read _ _ rfl⟩
    | getsz => exact ⟨_, rfl, .read _ _ rfl⟩
    | status => exact ⟨_, rfl, .read _ _ rfl⟩

/-! ### What the shared operations leave alone -/

@[simp] theorem appendBytes_nil (s : State) : appendBytes s [] = s := rfl

@[simp] theorem appendBytes_cons (s : State) (x : Byte) (xs : List Byte) :
    appendBytes s (x :: xs) = appendBytes (appendByte s x) xs := rfl

@[simp] theorem appendBytes_d (s : State) (bs : List Byte) : (appendBytes s bs).d = s.d := by
  obtain ⟨_, _, _, _, _, _, e⟩ := appendBytes_frame s bs
  rw [e]

@[simp] theorem appendBytes_dvalid (s : State) (bs : List Byte) :
    (appendBytes s bs).dvalid = s.dvalid := by
  obtain ⟨_, _, _, _, _, _, e⟩ := appendBytes_frame s bs
  rw [e]

@[simp] theorem appendBytes_err (s : State) (bs : List Byte) : (appendBytes s bs).err = s.err := by
  obtain ⟨_, _, _, _, _, _, e⟩ := appendBytes_frame s bs
  rw [e]

@[simp] theorem appendBytes_ecode (s : State) (bs : List Byte) :
    (appendBytes s bs).ecode = s.ecode := by
  obtain ⟨_, _, _, _, _, _, e⟩ := appendBytes_frame s bs
  rw [e]

/-- Writing the digest touches D and the free values used (R169, R236). -/
theorem writeDigest_frame (hFinal : Block) (s : State) :
    ∃ d free, writeDigest hFinal s = { s with d := d, free := free } := by
  unfold writeDigest
  split
  · exact ⟨_, _, rfl⟩
  · exact ⟨_, s.free, rfl⟩

/-! ### The cipher calls put on the port -/

theorem stepCalls_ne_nil (h m : Block) : stepCalls h m ≠ [] := by
  simp [stepCalls]

theorem nil_notMem_append_stepCalls {todo : List (List CphCall)} (ht : [] ∉ todo) (h m : Block) :
    [] ∉ todo ++ [stepCalls h m] := by
  simp [ht, (stepCalls_ne_nil h m).symm]

theorem nil_notMem_shadowTail_calls (enc : Encrypt) (b : List Byte) (c : Shadow)
    (hc : [] ∉ c.calls) : [] ∉ (shadowTail enc b c).calls := by
  by_cases hb : b = []
  · rw [hb, shadowTail_nil]
    exact hc
  · rw [shadowTail_cons _ _ _ hb]
    exact nil_notMem_append_stepCalls hc _ _

/-- No Step of a SUM is without its calls (R144, R165). -/
theorem nil_notMem_finalize_calls (s : State) : [] ∉ (finalize s).calls :=
  nil_notMem_append_stepCalls (nil_notMem_append_stepCalls
    (nil_notMem_shadowTail_calls _ _ _ List.not_mem_nil) _ _) _ _

/-- An answered call leaves no empty list behind (R145). -/
theorem nil_notMem_todoAfter {s : State} (hs : [] ∉ s.cphTodo) : [] ∉ todoAfter s := by
  unfold todoAfter
  split
  · exact List.not_mem_nil
  · next calls later htodo =>
    rw [htodo, List.mem_cons, not_or] at hs
    obtain ⟨-, hlater⟩ := hs
    simp only
    split
    · exact hlater
    · next hleft =>
      rw [List.mem_cons, not_or]
      exact ⟨Ne.symm hleft, hlater⟩

/-! ### The invariant over a transaction -/

/-- The part of the invariant that says nothing of the handshake: what a transaction can break. -/
structure CommandInv (s : State) : Prop where
  buffer : s.b.length < 32
  counter : s.l.toNat % 256 = 0
  cause : s.ecode = 0#2 ↔ s.err = false
  calls : [] ∉ s.cphTodo

theorem Inv.command {s : State} (hi : Inv s) : CommandInv s :=
  ⟨hi.buffer, hi.counter, hi.cause, hi.calls⟩

/-- One more block leaves L a multiple of 256, also where it wraps (R26, R163). -/
theorem counterAdd_mod {l : BitVec 64} (h : l.toNat % 256 = 0) : (counterAdd l).toNat % 256 = 0 := by
  simp only [counterAdd, BitVec.toNat_add, BitVec.toNat_ofNat]
  omega

theorem causeCode_ne_zero (c : Cause) : causeCode c ≠ 0#2 := by
  cases c <;> decide

theorem raiseIllegal_commandInv {s : State} (hi : CommandInv s) (c : Cause) :
    CommandInv (raiseIllegal c s) where
  buffer := hi.buffer
  counter := hi.counter
  cause := by
    have hcause := hi.cause
    cases he : s.err with
    | false => simp [he, causeCode_ne_zero c]
    | true => simpa [he] using hcause
  calls := hi.calls

theorem appendByte_commandInv {s : State} (hi : CommandInv s) (x : Byte) :
    CommandInv (appendByte s x) := by
  unfold appendByte
  split
  · exact {
      buffer := by simp
      counter := counterAdd_mod hi.counter
      cause := hi.cause
      calls := nil_notMem_append_stepCalls hi.calls _ _ }
  · next hfull =>
    have hlen := hi.buffer
    simp only [List.length_append, List.length_singleton] at hfull
    exact { hi with buffer := by simp only [List.length_append, List.length_singleton]; omega }

theorem appendBytes_commandInv {s : State} (hi : CommandInv s) (bs : List Byte) :
    CommandInv (appendBytes s bs) := by
  induction bs generalizing s with
  | nil => exact hi
  | cons x xs ih => exact ih (appendByte_commandInv hi x)

theorem commandEffect_commandInv {s t : State} {r : Except Cause Instr} (hi : CommandInv s)
    (he : CommandEffect s r t) : CommandInv t := by
  cases he with
  | illegal c => exact raiseIllegal_commandInv hi c
  | read i rw _ => exact { hi with }
  | reset => exact ⟨by simp, by simp, by simp, hi.calls⟩
  | write nb dw _ => exact { appendBytes_commandInv hi (dataBytes nb dw) with }
  | sum =>
    obtain ⟨d, free, e⟩ := writeDigest_frame (finalize s).h s
    rw [e]
    refine { hi with calls := ?_ }
    simp only [respondStatus_cphTodo, List.mem_append, not_or]
    exact ⟨hi.calls, nil_notMem_finalize_calls s⟩

theorem transact_commandInv {cw dw : Word} {s t : State} (hi : CommandInv s)
    (h : transact cw dw s = .next t) : CommandInv t := by
  obtain ⟨t', ht', he⟩ := transact_effect cw dw s
  obtain rfl : t = t' := by simpa [h] using ht'
  exact commandEffect_commandInv hi he

/-! ### The invariant over an edge -/

/-- With a command in flight, the port may hold any calls that a request, if one is up, belongs to. -/
theorem CommandInv.busy {s : State} (hi : CommandInv s) {cw : Word} {n : Nat}
    (phase : s.phase = .busy cw n) (request : s.cphReq = true → s.cphTodo ≠ []) : Inv s :=
  { hi with
    quiet := fun h => absurd phase (h cw n)
    request := request }

theorem hardwareReset_inv (p : Pins) (s : State) : Inv (hardwareReset p s) where
  buffer := by simp
  counter := by simp
  cause := by simp
  calls := by simp
  quiet := fun _ => ⟨rfl, rfl⟩
  request := by simp

theorem driveSbox_inv {s : State} (hi : Inv s) (p : Pins) : Inv (driveSbox p s) := by
  obtain ⟨_, _, _, _, e⟩ := driveSbox_frame p s
  rw [e]
  exact { hi with }

/-- At the accepting edge no request is up, so any calls of the command may go on the port (R145). -/
theorem acceptEdge_inv {p : Pins} {s t : State} (hi : Inv s) (idle : s.phase = .idle)
    (h : acceptEdge p s = .next t) : Inv t := by
  obtain ⟨u, hu, rfl⟩ := acceptEdge_next h
  have hc := transact_commandInv hi.command hu
  obtain ⟨-, hreq, -⟩ := transact_frame _ _ _ _ hu
  obtain ⟨-, noReq⟩ := hi.quiet (by simp [idle])
  exact CommandInv.busy { hc with } rfl (by simp [hreq, noReq])

theorem cphTodo_ne_nil_of_currentCall {s : State} {c : CphCall} (h : currentCall s = some c) :
    s.cphTodo ≠ [] := by
  intro hnil
  simp [currentCall, hnil] at h

/-- The response is offered only once no call is left, and with none left no request is up (R145). -/
theorem busyEdge_inv {p : Pins} {cw : Word} {n : Nat} {s t : State} (hi : Inv s)
    (h : busyEdge p cw n s = .next t) : Inv t := by
  have hc := hi.command
  rcases busyEdge_cases p cw n s with
    ⟨c, hcall, ⟨-, e⟩ | ⟨-, -, e⟩ | ⟨-, -, -, e⟩ | ⟨-, -, -, e⟩⟩ | ⟨hcall, ⟨-, e⟩ | ⟨-, e⟩⟩ <;>
    rw [e] at h <;> cases h
  · exact CommandInv.busy { hc with } rfl fun _ => cphTodo_ne_nil_of_currentCall hcall
  · exact CommandInv.busy { hc with } rfl hi.request
  · exact CommandInv.busy { hc with calls := nil_notMem_todoAfter hc.calls } rfl (by simp)
  · have noCall : s.cphTodo = [] := (currentCall_eq_none s hi.calls).1 hcall
    have noReq : s.cphReq = false := by
      by_contra hreq
      exact hi.request (by simpa using hreq) noCall
    exact { hi with quiet := fun _ => ⟨noCall, noReq⟩ }
  · exact CommandInv.busy { hc with } rfl hi.request

theorem clockEdge_inv {p : Pins} {s t : State} (hi : Inv s) (h : clockEdge p s = .next t) :
    Inv t := by
  obtain ⟨-, hc⟩ := clockEdge_next p s t h
  have hd := driveSbox_inv hi p
  rcases hc with ⟨-, rfl⟩ | ⟨-, ⟨-, -, rfl⟩ | ⟨hp, -, ha⟩ | ⟨cw, n, -, hb⟩ | ⟨hp, -, rfl⟩ |
    ⟨-, -, rfl⟩⟩
  · exact hardwareReset_inv p s
  · exact { hd with }
  · exact acceptEdge_inv hd hp ha
  · have held : Inv { driveSbox p s with held := offered p } := { hd with }
    exact busyEdge_inv held hb
  · exact { hd with quiet := fun _ => hd.quiet (by simp [hp]) }
  · exact { hd with }

/-- Settles O52: by the kind of the edge; a transaction keeps what it can break, and the handshake and the
cipher port keep the rest. -/
theorem stepKeepsInvariant : Obligations.StepKeepsInvariant := by
  intro s t hi h
  have taken : Inv { s with inputs := s.inputs.tail } := { hi with }
  exact clockEdge_inv taken h

/-- Settles O51: at reset B is empty, L is 0, no cause is recorded and no call is left. -/
theorem invariantHoldsAtReset : Obligations.InvariantHoldsAtReset where
  buffer := by simp [State.reset]
  counter := by simp [State.reset]
  cause := by simp [State.reset]
  calls := by simp [State.reset]
  quiet := fun _ => ⟨rfl, rfl⟩
  request := by simp [State.reset]

/-- Settles O50: the reset state is idle, and an idle engine offers nothing. -/
theorem resetStateElements : Obligations.ResetStateElements := by
  refine ⟨rfl, rfl, rfl, rfl, rfl, rfl, rfl, rfl, rfl, by decide, fun p hrst => ⟨?_, ?_, ?_⟩⟩
  · simp [cmdReady, State.reset, hrst]
  · simp [rspOffered, State.reset]
  · simp [cphOffered, State.reset]

/-! ### The error flag and the engine -/

/-- The state with another ERR and ECODE. -/
def setError (e : Bool) (c : BitVec 2) (s : State) : State := { s with err := e, ecode := c }

theorem appendByte_setError (e : Bool) (c : BitVec 2) (s : State) (x : Byte) :
    appendByte (setError e c s) x = setError e c (appendByte s x) := by
  unfold appendByte
  rw [show (setError e c s).b = s.b from rfl]
  split <;> rfl

theorem appendBytes_setError (e : Bool) (c : BitVec 2) (s : State) (bs : List Byte) :
    appendBytes (setError e c s) bs = setError e c (appendBytes s bs) := by
  induction bs generalizing s with
  | nil => rfl
  | cons x xs ih => rw [appendBytes_cons, appendBytes_cons, appendByte_setError, ih]

theorem writeDigest_setError (e : Bool) (c : BitVec 2) (hFinal : Block) (s : State) :
    writeDigest hFinal (setError e c s) = setError e c (writeDigest hFinal s) := by
  unfold writeDigest
  rw [show (setError e c s).sboxMoved = s.sboxMoved from rfl]
  split <;> rfl

theorem finalize_setError (e : Bool) (c : BitVec 2) (s : State) :
    finalize (setError e c s) = finalize s :=
  finalize_congr s _ rfl rfl rfl rfl rfl

/-- Settles O31: no operation of a legal command reads ERR or ECODE but to answer STATUS. -/
theorem errorDoesNotStopTheEngine : Obligations.ErrorDoesNotStopTheEngine := by
  intro i s e c wf
  change ∃ t u, exec i s = .next t ∧ exec i (setError e c s) = .next u ∧ _
  cases i with
  | write nb dw =>
    have legal : nb ≤ 4#3 := by simpa [Instr.wellFormed] using wf
    refine ⟨_, _, execWrite_legal nb dw _ legal, execWrite_legal nb dw _ legal, ?_⟩
    rw [appendBytes_setError]
    rfl
  | sum =>
    refine ⟨_, _, rfl, rfl, ?_⟩
    rw [finalize_setError, writeDigest_setError]
    rfl
  | _ => exact ⟨_, _, rfl, rfl, rfl⟩

/-! ### Which commands write which elements -/

/-- Settles O32, by the effect of what the words decode to. -/
theorem dvalidFollowsTheMessage : Obligations.DvalidFollowsTheMessage := by
  refine ⟨fun cw dw s => ?_, fun p s hrst hold => ⟨_, clockEdge_reset p s hold hrst, rfl⟩⟩
  obtain ⟨t, ht, he⟩ := transact_effect cw dw s
  refine ⟨t, ht, ?_⟩
  generalize decode cw dw = r at he
  cases he with
  | illegal c => rfl
  | read i rw hi => cases i <;> simp [isRead] at hi ⊢
  | reset => rfl
  | write nb d _ => simp
  | sum => rfl

/-- Settles O33, by the effect of what the words decode to; a WRITE carries the data word of the port. -/
theorem writersOfEachRegister : Obligations.WritersOfEachRegister := by
  intro cw dw s
  obtain ⟨t, ht, he⟩ := transact_effect cw dw s
  refine ⟨t, ht, ?_⟩
  have data : ∀ nb d, decode cw dw = .ok (.write nb d) → d = dw := fun _ _ h => (decode_write h).1
  generalize decode cw dw = r at he data
  cases he with
  | illegal c => simp
  | read i rw _ => simp
  | reset => simp
  | write nb d _ =>
    refine ⟨fun notWrite => absurd ?_ (notWrite nb), fun _ _ => by simp⟩
    rw [data nb d rfl]
  | sum =>
    obtain ⟨d, free, e⟩ := writeDigest_frame (finalize s).h s
    rw [e]
    simp

/-! ### The hash state as a function of the message -/

/-- Blocks that are full already do not change when the message goes on. -/
theorem fullBlock_append (m xs : List Byte) {k : Nat} (h : 32 * k + 32 ≤ m.length) :
    ((m ++ xs).drop (32 * k)).take 32 = (m.drop (32 * k)).take 32 := by
  rw [List.drop_append_of_le_length (by omega), List.take_append_of_le_length]
  rw [List.length_drop]
  omega

theorem messageChain_append (enc : Encrypt) (m xs : List Byte) (n : Nat) (h : 32 * n ≤ m.length) :
    messageChain enc (m ++ xs) n = messageChain enc m n := by
  induction n with
  | zero => rfl
  | succ n ih =>
    simp only [messageChain, messageBlock]
    rw [ih (by omega), fullBlock_append m xs (by omega)]

theorem messageSum_append (m xs : List Byte) (n : Nat) (h : 32 * n ≤ m.length) :
    messageSum (m ++ xs) n = messageSum m n := by
  induction n with
  | zero => rfl
  | succ n ih =>
    simp only [messageSum]
    rw [ih (by omega), fullBlock_append m xs (by omega)]

theorem toList_reverseBlock (a : Block) : (reverseBlock a).toList = a.toList.reverse := by
  apply List.ext_getElem <;> simp

theorem toList_padBlock {bs : List Byte} (h : bs.length = 32) : (padBlock bs).toList = bs := by
  apply List.ext_getElem
  · simp [h]
  · intro i h1 h2
    simp [getElem_padBlock, h2]

/-- The integer of an absorbed block is the little-endian one of its message bytes (R51, R118). -/
theorem beInt_reverseBlock_padBlock {bs : List Byte} (h : bs.length = 32) :
    beInt (reverseBlock (padBlock bs)).toList = leInt bs := by
  rw [toList_reverseBlock, beInt_eq_leInt_reverse, List.reverse_reverse, toList_padBlock h]

/-- The hash state after the first n blocks of the message m under this encryption, the rest of m in B (R26,
R31). -/
structure HashesBlocks (enc : Encrypt) (m : List Byte) (n : Nat) (s : State) : Prop where
  encrypt : s.encrypt = enc
  h : s.h = messageChain enc m n
  l : s.l = BitVec.ofNat 64 (256 * n)
  sigma : s.sigma = BitVec.ofNat 256 (messageSum m n)
  b : s.b = m.drop (32 * n)
  lovf : s.lovf = decide (2 ^ 64 ≤ 256 * n)

/-- The hash state that the message m leaves: all its full blocks are absorbed. -/
def HashesMessage (enc : Encrypt) (m : List Byte) (s : State) : Prop :=
  HashesBlocks enc m (m.length / 32) s

theorem reset_hashesMessage : HashesMessage State.reset.encrypt [] State.reset := by
  constructor <;> rfl

theorem clearEngine_hashesMessage (s : State) : HashesMessage s.encrypt [] (clearEngine s) := by
  constructor <;> rfl

/-- L of n blocks and one more block set LOVF as n + 1 blocks do (R31, R163). -/
theorem overflowAfter_blocks (n : Nat) :
    overflowAfter (BitVec.ofNat 64 (256 * n)) (decide (2 ^ 64 ≤ 256 * n)) =
      decide (2 ^ 64 ≤ 256 * (n + 1)) := by
  simp only [overflowAfter, BitVec.toNat_ofNat, ← Bool.decide_or, decide_eq_decide]
  omega

theorem drop_blocks_append {enc : Encrypt} {m : List Byte} {n : Nat} {s : State}
    (hs : HashesBlocks enc m n s) (hn : 32 * n ≤ m.length) (xs : List Byte) :
    (m ++ xs).drop (32 * n) = s.b ++ xs := by
  rw [List.drop_append_of_le_length hn, hs.b]

/-- Bytes that wait in B go at the end of the message (R164). -/
theorem HashesBlocks.buffer {enc : Encrypt} {m : List Byte} {n : Nat} {s : State}
    (hs : HashesBlocks enc m n s) (hn : 32 * n ≤ m.length) (xs : List Byte) :
    HashesBlocks enc (m ++ xs) n { s with b := s.b ++ xs } :=
  { hs with
    h := by rw [messageChain_append enc m xs n hn, ← hs.h]
    sigma := by rw [messageSum_append m xs n hn, ← hs.sigma]
    b := (drop_blocks_append hs hn xs).symm }

/-- When B holds the whole of block n, absorbing it is the step from n blocks to n + 1 (R161 to R163). -/
theorem HashesBlocks.absorb {enc : Encrypt} {m : List Byte} {n : Nat} {s : State}
    (hs : HashesBlocks enc m n s) (full : s.b.length = 32) :
    HashesBlocks enc m (n + 1) (absorbBlock (padBlock s.b) s) := by
  have block : (m.drop (32 * n)).take 32 = s.b := by
    rw [← hs.b, List.take_of_length_le full.le]
  exact {
    encrypt := hs.encrypt
    h := by rw [absorbBlock_h, messageChain, messageBlock, block, hs.encrypt, hs.h]
    l := by
      rw [absorbBlock_l, hs.l, counterAdd, Nat.mul_add, BitVec.ofNat_add]
    sigma := by
      rw [absorbBlock_sigma, checksumAdd, beInt_reverseBlock_padBlock full, hs.sigma, messageSum,
        block, BitVec.ofNat_add]
    b := by
      have len : s.b.length = m.length - 32 * n := by rw [hs.b, List.length_drop]
      rw [absorbBlock_b, List.drop_eq_nil_of_le (by omega)]
    lovf := by rw [absorbBlock_lovf, hs.l, hs.lovf, overflowAfter_blocks] }

/-- A byte that fills a block moves it into the hash state; any other waits in B (R161, R164). -/
theorem appendByte_hashesMessage {enc : Encrypt} {m : List Byte} {s : State}
    (hs : HashesMessage enc m s) (x : Byte) : HashesMessage enc (m ++ [x]) (appendByte s x) := by
  have buffered := HashesBlocks.buffer hs (Nat.mul_div_le _ _) [x]
  have len : (s.b ++ [x]).length = m.length + 1 - 32 * (m.length / 32) := by
    rw [← drop_blocks_append hs (Nat.mul_div_le _ _) [x]]
    simp
  unfold appendByte HashesMessage
  split
  · next full =>
    have one_more : (m ++ [x]).length / 32 = m.length / 32 + 1 := by
      rw [List.length_append, List.length_singleton]
      omega
    rw [one_more]
    exact buffered.absorb full
  · next short =>
    have as_many : (m ++ [x]).length / 32 = m.length / 32 := by
      rw [List.length_append, List.length_singleton]
      omega
    rw [as_many]
    exact buffered

theorem appendBytes_hashesMessage {enc : Encrypt} {m : List Byte} {s : State}
    (hs : HashesMessage enc m s) (bs : List Byte) :
    HashesMessage enc (m ++ bs) (appendBytes s bs) := by
  induction bs generalizing m s with
  | nil => simpa using hs
  | cons x xs ih => simpa using ih (appendByte_hashesMessage hs x)

/-- How a command changes whether an illegal one came since the last RESET (R204, R240). -/
def illegalAfter (bad : Bool) (c : Word × Word) : Bool :=
  if isReset c then false else bad || isIllegal c

theorem illegalSince_eq_foldl (cs : List (Word × Word)) :
    illegalSince cs = cs.foldl illegalAfter false := rfl

/-- A transaction appends its bytes to the message, starts it again, or leaves it (R164, R171, R201). -/
theorem transact_hashesMessage {enc : Encrypt} {m : List Byte} {s t : State} {c : Word × Word}
    (hs : HashesMessage enc m s) (he : CommandEffect s (decode c.1 c.2) t) :
    HashesMessage enc (messageAfter m c) t := by
  unfold messageAfter
  generalize decode c.1 c.2 = r at he ⊢
  cases he with
  | illegal _ => exact { hs with }
  | read i rw hi =>
    have answered : HashesMessage enc m (respond rw s) := { hs with }
    cases i <;> simp [isRead, answered] at hi ⊢
  | reset =>
    rw [← HashesBlocks.encrypt hs]
    exact { clearEngine_hashesMessage s with }
  | write nb dw _ => exact { appendBytes_hashesMessage hs (dataBytes nb dw) with }
  | sum =>
    obtain ⟨d, free, e⟩ := writeDigest_frame (finalize s).h s
    rw [e]
    exact { hs with }

theorem transact_err {s t : State} {c : Word × Word} (he : CommandEffect s (decode c.1 c.2) t) :
    t.err = illegalAfter s.err c := by
  unfold illegalAfter isReset isIllegal
  generalize decode c.1 c.2 = r at he ⊢
  cases he with
  | illegal _ => simp
  | read i rw hi => cases i <;> simp [isRead] at hi ⊢
  | reset => simp
  | write nb dw _ => simp
  | sum =>
    obtain ⟨d, free, e⟩ := writeDigest_frame (finalize s).h s
    rw [e]
    simp

/-- Commands complete, and take the message and the error flag as far as their words say (R55, R200). -/
theorem runCommands_hashesMessage {enc : Encrypt} {m : List Byte} {s : State}
    (cs : List (Word × Word)) (hs : HashesMessage enc m s) :
    ∃ t, runCommands cs s = .next t ∧ HashesMessage enc (cs.foldl messageAfter m) t ∧
      t.err = cs.foldl illegalAfter s.err := by
  induction cs generalizing m s with
  | nil => exact ⟨s, rfl, hs, rfl⟩
  | cons c cs ih =>
    obtain ⟨u, hu, he⟩ := transact_effect c.1 c.2 s
    obtain ⟨t, ht, hm, herr⟩ := ih (transact_hashesMessage hs he)
    refine ⟨t, ?_, hm, ?_⟩
    · simp only [runCommands, hu, ht]
    · rw [herr, transact_err he, List.foldl_cons]

/-- Settles O44: by induction on the commands, from the empty message. -/
theorem hashStateIsOfTheMessage : Obligations.HashStateIsOfTheMessage := by
  intro cs
  obtain ⟨t, ht, hm, herr⟩ := runCommands_hashesMessage cs reset_hashesMessage
  exact ⟨t, messageOf cs, _, ht, rfl, rfl, hm.h, hm.l, hm.sigma, hm.b, hm.lovf,
    herr.trans (illegalSince_eq_foldl cs).symm⟩

end Sys2Proof.Machine
end

