-- ==== Sys2Proof/Proofs/CommandPort.lean ====
section
/-! PROOF. The command port (20_memory.md): the accepting edge is the transaction of the words offered, reads
change the response only, a WRITE is its byte writes, and every command gets its one response, in order (R55,
R57, R58, R63, R64). -/

namespace Sys2Proof.Machine

/-! ### What the next edge shows at the command port -/

theorem pending_idle {s : State} (idle : s.phase = .idle) : pending s = [] := by
  simp [pending, idle]

theorem pending_inFlight {s : State} (inFlight : s.phase ≠ .idle) : pending s = [s.rspWord] := by
  simp [pending, inFlight]

/-- With rst low, a waiting response transfers exactly when the host is ready for it (R57). -/
theorem nextDelivery_eq {s : State} (rst : (nextPins s).rst = false) :
    nextDelivery s =
      if s.phase = .responding ∧ (nextPins s).rspReady = true then [s.rspWord] else [] := by
  by_cases hp : s.phase = .responding <;> simp [nextDelivery, rspOffered, hp, rst]

/-- With rst low, the command offered transfers exactly when the engine is idle (R57). -/
theorem nextEvent_eq {s : State} (rst : (nextPins s).rst = false) :
    nextEvent s = if s.phase = .idle ∧ (nextPins s).cmdValid = true then
      [.command (nextPins s).cmdWord (nextPins s).cmdData] else [] := by
  simp [nextEvent, cmdReady, rst]

theorem nextEvent_inFlight {s : State} (rst : (nextPins s).rst = false)
    (inFlight : s.phase ≠ .idle) : nextEvent s = [] := by
  simp [nextEvent_eq rst, inFlight]

/-! ### The responses of a sequence of events -/

theorem responsesOf_cons {s t : State} {cw dw : Word} (evs : List Event)
    (h : transact cw dw s = .next t) :
    responsesOf (.command cw dw :: evs) s = t.rspWord :: responsesOf evs t := by
  simp [responsesOf, applyEvent, h]

/-- The responses are the engine's: the handshake and the pins to come have no part in them (R55, R60). -/
theorem responsesOf_sameEngine {s t : State} (e : SameEngine s t) (evs : List Event) :
    responsesOf evs s = responsesOf evs t := by
  induction evs generalizing s t with
  | nil => rfl
  | cons ev evs ih =>
    obtain ⟨s', t', hs, ht, e'⟩ := applyEvent_sameEngine e ev
    simp only [responsesOf, hs, ht, e'.rspWord, ih e']

theorem responsesOf_append {s t : State} {evs : List Event} (evs' : List Event)
    (h : applyEvents evs s = .next t) :
    responsesOf (evs ++ evs') s = responsesOf evs s ++ responsesOf evs' t := by
  induction evs generalizing s with
  | nil =>
    cases h
    rfl
  | cons ev evs ih =>
    obtain ⟨s', _, hs, -⟩ := applyEvent_sameEngine (SameEngine.refl s) ev
    rw [applyEvents_cons_next _ hs] at h
    simp only [List.cons_append, responsesOf, hs, ih h, List.append_assoc]

/-! ### One response for each command, edge by edge -/

/-- An edge in flight ends no command, and leaves its response word (R57, R90). -/
theorem busyEdge_pending {p : Pins} {cw : Word} {n : Nat} {s t : State}
    (h : busyEdge p cw n s = .next t) : pending t = [s.rspWord] := by
  rcases busyEdge_cases p cw n s with
    ⟨c, -, ⟨-, e⟩ | ⟨-, -, e⟩ | ⟨-, -, -, e⟩ | ⟨-, -, -, e⟩⟩ | ⟨-, ⟨-, e⟩ | ⟨-, e⟩⟩ <;>
    rw [e] at h <;> cases h <;> exact pending_inFlight (by simp)

/-- The accepting edge leaves pending the response that its command gets as an event (R57, R90). -/
theorem acceptEdge_pending {p : Pins} {s s₀ t : State} (e : SameEngine s s₀)
    (h : acceptEdge p s = .next t) :
    responsesOf [.command p.cmdWord p.cmdData] s₀ = pending t := by
  obtain ⟨u, hu, rfl⟩ := acceptEdge_next h
  obtain ⟨u', v, hu', hv, uv⟩ := transact_sameEngine e p.cmdWord p.cmdData
  obtain rfl : u = u' := by simpa [hu] using hu'
  rw [responsesOf_cons [] hv, ← uv.rspWord, pending_inFlight (by simp)]
  rfl

/-- One edge, rst low and SBOX steady: what was pending and the response of a command that transfers are what
is delivered and what is pending after (R57). -/
theorem step_pending {s t : State} (rst : (nextPins s).rst = false)
    (sbox : (nextPins s).sbox = none) (h : step s = .next t) :
    pending s ++ responsesOf (nextEvent s) s = nextDelivery s ++ pending t := by
  obtain ⟨-, hc⟩ := clockEdge_next _ _ t h
  rw [driveSbox_steady _ _ sbox] at hc
  have tailOff : SameEngine { s with inputs := s.inputs.tail } s :=
    sameEngine_port s s.phase s.cphTodo s.cphReq _ s.held
  rw [nextDelivery_eq rst]
  rcases hc with ⟨hrst, -⟩ | ⟨-, ⟨idle, noOffer, rfl⟩ | ⟨idle, offer, ha⟩ | ⟨cw, n, busy, hb⟩ |
    ⟨waits, ready, rfl⟩ | ⟨waits, notReady, rfl⟩⟩
  · simp [rst] at hrst
  · replace idle : s.phase = .idle := idle
    simp [nextEvent_eq rst, noOffer, pending, idle, responsesOf]
  · replace idle : s.phase = .idle := idle
    rw [nextEvent_eq rst, if_pos ⟨idle, offer⟩, acceptEdge_pending tailOff ha]
    simp [pending_idle idle, idle]
  · replace busy : s.phase = .busy cw n := busy
    rw [nextEvent_inFlight rst (by simp [busy]), pending_inFlight (by simp [busy]),
      busyEdge_pending hb]
    simp [busy, responsesOf]
  · replace waits : s.phase = .responding := waits
    rw [nextEvent_inFlight rst (by simp [waits])]
    simp [pending, waits, ready, responsesOf]
  · replace waits : s.phase = .responding := waits
    rw [nextEvent_inFlight rst (by simp [waits])]
    simp [pending, waits, notReady, responsesOf]

theorem noReset_head {n : Nat} {s : State} (h : noReset (n + 1) s) : (nextPins s).rst = false := by
  unfold nextPins
  cases hi : s.inputs with
  | nil => rfl
  | cons p rest => exact h p (by simp [hi])

theorem noReset_tail {n : Nat} {s t : State} (h : noReset (n + 1) s)
    (inputs : t.inputs = s.inputs.tail) : noReset n t := by
  intro p hp
  have later : t.inputs.take n = (s.inputs.take (n + 1)).tail := by
    rw [inputs, List.tail_take_eq_take_tail, Nat.add_sub_cancel]
  rw [later] at hp
  exact h p (List.mem_of_mem_tail hp)

theorem deliveredOf_succ {n : Nat} {s s' : State} (h : step s = .next s') :
    deliveredOf (n + 1) s = nextDelivery s ++ deliveredOf n s' := by
  simp only [deliveredOf, h]

/-- Settles O54, by induction on the edges: the first edge balances, and the responses of the events after it
are those of the state it leaves, which is the engine its own event leaves. -/
theorem oneResponsePerCommandInOrder : Obligations.OneResponsePerCommandInOrder := by
  intro n
  induction n with
  | zero =>
    intro s t _ _ hrun
    cases hrun
    simp [eventsOf, responsesOf, deliveredOf]
  | succ n ih =>
    intro s t hsteady hlow hrun
    obtain ⟨s', hstep, hrest⟩ := runEdges_succ hrun
    have sbox := sboxSteady_head hsteady
    obtain ⟨u, hu, su⟩ := step_refines_nextEvent sbox hstep
    have first := step_pending (noReset_head hlow) sbox hstep
    have later := ih s' t (sboxSteady_step hsteady hstep)
      (noReset_tail hlow (step_inputs sbox hstep)) hrest
    rw [eventsOf_succ hstep, deliveredOf_succ hstep]
    calc pending s ++ responsesOf (nextEvent s ++ eventsOf n s') s
        = pending s ++ responsesOf (nextEvent s) s ++ responsesOf (eventsOf n s') s' := by
          rw [responsesOf_append _ hu, ← responsesOf_sameEngine su, List.append_assoc]
      _ = nextDelivery s ++ (pending s' ++ responsesOf (eventsOf n s') s') := by
          rw [first, List.append_assoc]
      _ = nextDelivery s ++ deliveredOf n s' ++ pending t := by
          rw [later, List.append_assoc]

/-! ### A WRITE byte by byte -/

/-- The words of a WRITE of one byte, in lane 0 (R64). -/
def byteWrite (x : Byte) : Word × Word := (0x00000012#32, x.setWidth 32)

/-- The state with another DVALID and response word: what a WRITE leaves besides its bytes (R164). -/
def setAnswer (v : Bool) (rw : Word) (s : State) : State := { s with dvalid := v, rspWord := rw }

theorem appendByte_setAnswer (v : Bool) (rw : Word) (s : State) (x : Byte) :
    appendByte (setAnswer v rw s) x = setAnswer v rw (appendByte s x) := by
  unfold appendByte
  rw [show (setAnswer v rw s).b = s.b from rfl]
  split <;> rfl

theorem dataBytes_setWidth (x : Byte) : dataBytes 1#3 (x.setWidth 32) = [x] := by
  have lane : (x.setWidth 32).extractLsb' 0 8 = x := by
    ext i hi
    simp [hi, show i < 32 by omega]
  simp [dataBytes, dataByte, lane]

theorem decode_byteWrite (x : Byte) :
    decode (byteWrite x).1 (byteWrite x).2 = .ok (.write 1#3 (x.setWidth 32)) := by
  simp [decode, assigned, byteWrite, opField, nbField, reservedMask]

/-- A byte write appends its byte, clears DVALID and answers 1 (R164). -/
theorem transact_byteWrite (s : State) (x : Byte) :
    transact (byteWrite x).1 (byteWrite x).2 s =
      .next (setAnswer false 1#32 (appendByte s x)) := by
  have run : transact (byteWrite x).1 (byteWrite x).2 s = execWrite 1#3 (x.setWidth 32) s := by
    simp only [transact, decode_byteWrite, exec]
  rw [run, execWrite_legal _ _ _ (by decide), dataBytes_setWidth, appendBytes_cons,
    appendBytes_nil]
  rfl

theorem runCommands_cons {c : Word × Word} {s t : State} (cs : List (Word × Word))
    (h : transact c.1 c.2 s = .next t) : runCommands (c :: cs) s = runCommands cs t := by
  simp only [runCommands, h]

/-- Byte writes after a byte write append their bytes (R64, R164). -/
theorem runCommands_byteWrites (bs : List Byte) (s : State) :
    runCommands (bs.map byteWrite) (setAnswer false 1#32 s) =
      .next (setAnswer false 1#32 (appendBytes s bs)) := by
  induction bs generalizing s with
  | nil => rfl
  | cons x xs ih =>
    have first := transact_byteWrite (setAnswer false 1#32 s) x
    rw [appendByte_setAnswer] at first
    rw [List.map_cons, runCommands_cons _ first]
    exact ih (appendByte s x)

/-- At least one byte write appends the bytes, clears DVALID and answers 1 (R64, R164). -/
theorem runCommands_byteWrites_of_ne_nil {bs : List Byte} (hbs : bs ≠ []) (s : State) :
    runCommands (bs.map byteWrite) s = .next (setAnswer false 1#32 (appendBytes s bs)) := by
  cases bs with
  | nil => exact absurd rfl hbs
  | cons x xs =>
    rw [List.map_cons, runCommands_cons _ (transact_byteWrite s x), runCommands_byteWrites,
      appendBytes_cons]

theorem map_byteWrite_dataBytes (nb : BitVec 3) (dw : Word) :
    (List.range nb.toNat).map (fun k => (0x00000012#32, (dataByte dw k).setWidth 32)) =
      (dataBytes nb dw).map byteWrite := by
  simp [dataBytes, byteWrite]

theorem dataBytes_ne_nil {nb : BitVec 3} (h : nb ≠ 0#3) (dw : Word) : dataBytes nb dw ≠ [] := by
  have pos : nb.toNat ≠ 0 := fun h0 => h (BitVec.eq_of_toNat_eq h0)
  rw [← List.length_pos_iff, length_dataBytes]
  omega

/-- Settles O21: with no byte both leave the state, but that the WRITE answers 0; with at least one, both append
the same bytes and clear DVALID. -/
theorem writeIsItsByteWrites : Obligations.WriteIsItsByteWrites := by
  intro nb dw s legal
  have answer : (nb.setWidth 32).toNat = nb.toNat := BitVec.toNat_setWidth_of_le (by decide)
  rw [map_byteWrite_dataBytes]
  by_cases hnb : nb = 0#3
  · subst hnb
    exact ⟨_, _, execWrite_legal 0#3 dw s legal, rfl, rfl, answer, fun h => absurd rfl h⟩
  · refine ⟨_, _, execWrite_legal nb dw s legal,
      runCommands_byteWrites_of_ne_nil (dataBytes_ne_nil hnb dw) s, ?_, answer, fun _ => rfl⟩
    rw [if_neg hnb]
    rfl

/-! ### Reads, and the accepting edge -/

/-- Settles O34: each of these commands answers a word that does not depend on the response word before it. -/
theorem readsHaveNoSideEffect : Obligations.ReadsHaveNoSideEffect := by
  intro i s hi
  rcases hi with hi | ⟨idx, rfl⟩
  · simp only [List.mem_cons, List.not_mem_nil, or_false] at hi
    rcases hi with rfl | rfl | rfl | rfl
    · exact ⟨statusWord s, rfl, rfl⟩
    · exact ⟨statusWord s, rfl, rfl⟩
    · exact ⟨0x00000020#32, rfl, rfl⟩
    · exact ⟨0x00000020#32, rfl, rfl⟩
  · exact ⟨digestWord s.d idx, rfl, rfl⟩

theorem driveSbox_phase (p : Pins) (s : State) : (driveSbox p s).phase = s.phase := by
  obtain ⟨_, _, _, _, e⟩ := driveSbox_frame p s
  rw [e]

/-- With the engine idle, rst low and an offer that keeps the hold, an edge samples SBOX and takes the command
(R57, R236, log 14). -/
theorem step_accept {s : State} {p : Pins} {rest : List Pins} (inputs : s.inputs = p :: rest)
    (idle : s.phase = .idle) (rst : p.rst = false) (valid : p.cmdValid = true)
    (held : s.held = none ∨ s.held = some (p.cmdWord, p.cmdData)) :
    step s = acceptEdge p (driveSbox p { s with inputs := rest }) := by
  have hold : ∀ c, s.held = some c → offered p = some c := by
    intro c hc
    rcases held with hnone | hsome
    · simp [hnone] at hc
    · simp [offered, valid, ← hc, hsome]
  have idle' : (driveSbox p { s with inputs := rest }).phase = .idle :=
    (driveSbox_phase p _).trans idle
  rw [step_cons s p rest inputs, clockEdge_run p { s with inputs := rest } hold rst]
  simp only [runEdge, idle', valid, if_true]

/-- Settles O48: the edge takes the command, and the transaction of its words is exec of what they decode to, or
IllegalCommand. -/
theorem stepRunsDecodedCommand : Obligations.StepRunsDecodedCommand := by
  intro s p rest inputs idle rst valid held
  rw [step_accept inputs idle rst valid held]
  refine ⟨fun i t decoded ran => ?_, fun c decoded => ?_, driveSbox_steady p _⟩
  · simp only [acceptEdge, transact, decoded, ran]
  · simp only [acceptEdge, transact, decoded]

end Sys2Proof.Machine
end

