-- ==== Sys2Proof/Proofs/Encoding.lean ====
section
/-! PROOF. The encoding of the commands (30_encoding.md): the fields of a command word, the legal words and the
command each of them means, the one place where the data word goes, and the assembler against the disassembler
(R80 to R88, R93, R95). -/

namespace Sys2Proof.Machine

/-! ### The fields of a command word -/

theorem and_opMask (cw : Word) : cw &&& 0x0000000F#32 = (opField cw).setWidth 32 := by
  ext i hi
  interval_cases i <;> simp [opField]

theorem and_nbMask (cw : Word) : cw &&& 0x00000070#32 = (nbField cw).setWidth 32 <<< 4 := by
  ext i hi
  interval_cases i <;> simp [nbField]

theorem and_idxMask (cw : Word) : cw &&& 0x00000700#32 = (idxField cw).setWidth 32 <<< 8 := by
  ext i hi
  interval_cases i <;> simp [idxField]

/-- The mask of a row without operands covers the whole word (R87). -/
theorem and_fullMask (cw : Word) : cw &&& 0xFFFFFFFF#32 = cw := BitVec.and_allOnes

/-- A word is its bits under two masks that cover it. -/
theorem eq_or_of_masks (cw m n : Word) (cover : m ||| n = 0xFFFFFFFF#32) :
    cw = cw &&& m ||| cw &&& n := by
  rw [← BitVec.and_or_distrib_left, cover, and_fullMask]

/-- With every other bit 0, a word is its opcode (R80, R84). -/
theorem eq_op_of_reserved {cw : Word} (rsvd : cw &&& 0xFFFFFFF0#32 = 0#32) :
    cw = (opField cw).setWidth 32 := by
  conv_lhs => rw [eq_or_of_masks cw 0x0000000F#32 0xFFFFFFF0#32 rfl, rsvd, and_opMask]
  exact BitVec.or_zero

/-- With every other bit 0, a word is its opcode and NB (R80, R82, R84). -/
theorem eq_op_nb_of_reserved {cw : Word} (rsvd : cw &&& 0xFFFFFF80#32 = 0#32) :
    cw = (opField cw).setWidth 32 ||| (nbField cw).setWidth 32 <<< 4 := by
  conv_lhs => rw [eq_or_of_masks cw (0x0000000F#32 ||| 0x00000070#32) 0xFFFFFF80#32 rfl, rsvd,
    BitVec.and_or_distrib_left, and_opMask, and_nbMask]
  exact BitVec.or_zero

/-- With every other bit 0, a word is its opcode and IDX (R80, R83, R84). -/
theorem eq_op_idx_of_reserved {cw : Word} (rsvd : cw &&& 0xFFFFF8F0#32 = 0#32) :
    cw = (opField cw).setWidth 32 ||| (idxField cw).setWidth 32 <<< 8 := by
  conv_lhs => rw [eq_or_of_masks cw (0x0000000F#32 ||| 0x00000700#32) 0xFFFFF8F0#32 rfl, rsvd,
    BitVec.and_or_distrib_left, and_opMask, and_idxMask]
  exact BitVec.or_zero

/-! ### Where the data word goes -/

/-- The command with this data word, if it carries one (R85, R86). -/
def withData (dw : Word) : Instr → Instr
  | .write nb _ => .write nb dw
  | i => i

theorem withData_of_not_write {i : Instr} (dw : Word) (h : ∀ nb d, i ≠ .write nb d) :
    withData dw i = i := by
  cases i with
  | write nb d => exact absurd rfl (h nb d)
  | _ => rfl

theorem assigned_withData (cw dw dw' : Word) :
    assigned cw dw' = (assigned cw dw).map (withData dw') := by
  unfold assigned
  split <;> rfl

/-- The data word goes into a WRITE and nowhere else: no check of decode reads it (R85, R86, R88). -/
theorem decode_withData (cw dw dw' : Word) :
    decode cw dw' = (decode cw dw).map (withData dw') := by
  unfold decode
  rw [assigned_withData cw dw dw']
  cases assigned cw dw with
  | none => rfl
  | some i =>
    dsimp only [Option.map]
    split_ifs <;> rfl

/-- Settles O7: with another data word the words decode to the same command or cause. -/
theorem onlyWriteReadsTheDataWord : Obligations.OnlyWriteReadsTheDataWord := by
  intro cw dw dw' s notWrite
  have same : decode cw dw' = decode cw dw := by
    rw [decode_withData cw dw dw']
    cases hd : decode cw dw with
    | error c => rfl
    | ok i =>
      refine congrArg Except.ok (withData_of_not_write dw' fun nb d hi => notWrite nb ?_)
      rw [hi] at hd
      rw [hd, (decode_write hd).1]
  simp only [transact, same]

/-! ### Legal words and their commands -/

/-- A command's OP (R81). -/
def opcode : Instr → BitVec 4
  | .nop => 0#4
  | .reset => 1#4
  | .write _ _ => 2#4
  | .sum => 3#4
  | .rddig _ => 4#4
  | .getbs => 5#4
  | .getsz => 6#4
  | .status => 7#4

theorem assigned_opField {cw dw : Word} {i : Instr} (h : assigned cw dw = some i) :
    opField cw = opcode i := by
  unfold assigned at h
  split at h <;> cases h
  all_goals next hop => exact BitVec.eq_of_toNat_eq hop

theorem assigned_rddig {cw dw : Word} {idx : BitVec 3} (h : assigned cw dw = some (.rddig idx)) :
    idx = idxField cw := by
  unfold assigned at h
  split at h <;> cases h
  rfl

/-- An assigned word without a reserved bit is the word its command is encoded in (R80, R84, R87). -/
theorem encode_of_assigned {cw dw : Word} {i : Instr} (h : assigned cw dw = some i)
    (rsvd : cw &&& reservedMask (opField cw) = 0#32) : (encode i).1 = cw := by
  have hop := assigned_opField h
  rw [hop] at rsvd
  cases i with
  | write nb d =>
    obtain ⟨-, rfl, -⟩ := assigned_write h
    have word := eq_op_nb_of_reserved rsvd
    rw [hop] at word
    exact word.symm
  | rddig idx =>
    obtain rfl := assigned_rddig h
    have word := eq_op_idx_of_reserved rsvd
    rw [hop] at word
    exact word.symm
  | _ =>
    have word := eq_op_of_reserved rsvd
    rw [hop] at word
    exact word.symm

/-- The checks that a legal word passes (R88). -/
theorem decode_eq_ok_iff_checks {cw dw : Word} {i : Instr} : decode cw dw = .ok i ↔
    assigned cw dw = some i ∧ cw &&& reservedMask (opField cw) = 0#32 ∧
      ¬(opField cw = 2#4 ∧ 4#3 < nbField cw) := by
  unfold decode
  cases assigned cw dw with
  | none => simp
  | some j =>
    dsimp only
    split_ifs with rsvd nb <;> simp_all

theorem encode_write_fields (nb : BitVec 3) (d : Word) :
    opField (encode (.write nb d)).1 = 2#4 ∧ nbField (encode (.write nb d)).1 = nb ∧
      (encode (.write nb d)).1 &&& reservedMask 2#4 = 0#32 := by
  revert nb
  simp only [encode]
  decide

/-- The word of a WRITE decodes to it with the data word of the port, or is refused for its NB (R82, R88). -/
theorem decode_encode_write (nb : BitVec 3) (d dw : Word) :
    decode (encode (.write nb d)).1 dw =
      if 4#3 < nb then .error .badNb else .ok (.write nb dw) := by
  obtain ⟨hop, hnb, hrsvd⟩ := encode_write_fields nb d
  simp [decode, assigned, hop, hnb, hrsvd]

theorem decode_encode_rddig (idx : BitVec 3) (dw : Word) :
    decode (encode (.rddig idx)).1 dw = .ok (.rddig idx) := by
  have all : ∀ idx, decode (encode (.rddig idx)).1 0#32 = .ok (.rddig idx) := by decide
  rw [decode_withData _ 0#32, all]
  rfl

/-- The word of a well-formed command decodes to the command, with the data word of the port (R87). -/
theorem decode_encode_withData {i : Instr} (wf : i.wellFormed = true) (dw : Word) :
    decode (encode i).1 dw = .ok (withData dw i) := by
  cases i with
  | write nb d =>
    have legal : nb ≤ 4#3 := by simpa [Instr.wellFormed] using wf
    rw [decode_encode_write, if_neg (BitVec.not_lt.2 legal)]
    rfl
  | rddig idx => exact decode_encode_rddig idx dw
  | _ => rfl

theorem withData_encode (i : Instr) : withData (encode i).2 i = i := by
  cases i <;> rfl

/-- The legal words are the encodings of the well-formed commands, and each means its own command (R80 to R88). -/
theorem decode_eq_ok_iff {cw dw : Word} {i : Instr} : decode cw dw = .ok i ↔
    i.wellFormed = true ∧ (encode i).1 = cw ∧ withData dw i = i := by
  constructor
  · intro h
    obtain ⟨ha, rsvd, -⟩ := decode_eq_ok_iff_checks.1 h
    have data : withData dw i = i := by
      have := decode_withData cw dw dw
      simpa [h, Except.map] using this.symm
    refine ⟨?_, encode_of_assigned ha rsvd, data⟩
    cases i with
    | write nb d => simpa [Instr.wellFormed] using (decode_write h).2
    | _ => rfl
  · rintro ⟨wf, rfl, data⟩
    rw [decode_encode_withData wf, data]

/-- Settles O2: the data word of the encoding is the command's own. -/
theorem decodeEncodeRoundTrip : Obligations.DecodeEncodeRoundTrip := by
  intro i wf
  rw [decode_encode_withData wf, withData_encode]

/-- Settles O3, from the characterisation of the legal words. -/
theorem legalWordIsItsEncoding : Obligations.LegalWordIsItsEncoding := by
  intro cw dw i h
  obtain ⟨wf, word, -⟩ := decode_eq_ok_iff.1 h
  exact ⟨wf, word, fun nb d hi => (decode_write (hi ▸ h)).1⟩

/-- Settles O1: each word is the encoding of its command. -/
theorem decodeWordsWrittenOut : Obligations.DecodeWordsWrittenOut := fun dw =>
  ⟨decode_encode_withData (i := .nop) rfl dw, decode_encode_withData (i := .reset) rfl dw,
    decode_encode_withData (i := .write 0#3 dw) rfl dw,
    decode_encode_withData (i := .write 4#3 dw) rfl dw,
    decode_encode_withData (i := .sum) rfl dw, decode_encode_withData (i := .rddig 1#3) rfl dw,
    decode_encode_withData (i := .rddig 7#3) rfl dw, decode_encode_withData (i := .getbs) rfl dw,
    decode_encode_withData (i := .getsz) rfl dw, decode_encode_withData (i := .status) rfl dw⟩

/-! ### The rows of the table -/

/-- A row without operands has its match as its one legal word (R87). -/
theorem decode_eq_ok_iff_word {cw : Word} (dw : Word) {i : Instr} (wf : i.wellFormed = true)
    (data : withData dw i = i) : decode cw dw = .ok i ↔ cw &&& 0xFFFFFFFF#32 = (encode i).1 := by
  rw [decode_eq_ok_iff, and_fullMask]
  exact ⟨fun ⟨_, word, _⟩ => word.symm, fun word => ⟨wf, word.symm, data⟩⟩

/-- WRITE's legal words match under its mask and have NB ≤ 4 (R82, R87). -/
theorem decode_eq_write_iff (cw dw : Word) : (∃ nb d, decode cw dw = .ok (.write nb d)) ↔
    cw &&& 0xFFFFFF8F#32 = 0x00000002#32 ∧ nbField cw ≤ 4#3 := by
  constructor
  · rintro ⟨nb, d, h⟩
    obtain ⟨wf, rfl, -⟩ := decode_eq_ok_iff.1 h
    obtain ⟨-, hnb, -⟩ := encode_write_fields nb d
    rw [hnb]
    exact ⟨Laws.TableRow.write nb d wf, (decode_write h).2⟩
  · rintro ⟨row, legal⟩
    have word : cw = (encode (.write (nbField cw) dw)).1 := by
      conv_lhs => rw [eq_or_of_masks cw 0xFFFFFF8F#32 0x00000070#32 rfl, row, and_nbMask]
      rfl
    refine ⟨nbField cw, dw, decode_eq_ok_iff.2 ⟨?_, word.symm, rfl⟩⟩
    simpa [Instr.wellFormed] using legal

/-- RDDIG's legal words match under its mask, with any IDX (R83, R87). -/
theorem decode_eq_rddig_iff (cw dw : Word) : (∃ idx, decode cw dw = .ok (.rddig idx)) ↔
    cw &&& 0xFFFFF8FF#32 = 0x00000004#32 := by
  constructor
  · rintro ⟨idx, h⟩
    obtain ⟨wf, rfl, -⟩ := decode_eq_ok_iff.1 h
    exact Laws.TableRow.rddig idx wf
  · intro row
    have word : cw = (encode (.rddig (idxField cw))).1 := by
      conv_lhs => rw [eq_or_of_masks cw 0xFFFFF8FF#32 0x00000700#32 rfl, row, and_idxMask]
      rfl
    exact ⟨idxField cw, decode_eq_ok_iff.2 ⟨rfl, word.symm, rfl⟩⟩

/-- The legal command words, written out (R87). -/
def legalWords : List Word :=
  [0x00000000#32, 0x00000001#32, 0x00000002#32, 0x00000012#32, 0x00000022#32, 0x00000032#32,
    0x00000042#32, 0x00000003#32, 0x00000004#32, 0x00000104#32, 0x00000204#32, 0x00000304#32,
    0x00000404#32, 0x00000504#32, 0x00000604#32, 0x00000704#32, 0x00000005#32, 0x00000006#32,
    0x00000007#32]

/-- The words written out are the encodings of the well-formed commands (R87's count). -/
theorem encode_mem_legalWords {i : Instr} (wf : i.wellFormed = true) :
    (encode i).1 ∈ legalWords := by
  cases i with
  | write nb d =>
    have all : ∀ nb : BitVec 3, nb ≤ 4#3 →
        (0x00000002#32 ||| (nb.setWidth 32 <<< 4)) ∈ legalWords := by decide
    exact all nb (by simpa [Instr.wellFormed] using wf)
  | rddig idx =>
    have all : ∀ idx : BitVec 3, (encode (.rddig idx)).1 ∈ legalWords := by decide
    exact all idx
  | _ => decide

theorem decode_isOk_of_mem_legalWords {cw : Word} (h : cw ∈ legalWords) (dw : Word) :
    ∃ i, decode cw dw = .ok i := by
  have legal : (legalWords.all fun w => !isIllegal (w, 0#32)) = true := rfl
  have hcw := List.all_eq_true.1 legal cw h
  rw [decode_withData cw 0#32]
  unfold isIllegal at hcw
  split at hcw
  · next i hi => exact ⟨withData dw i, by rw [hi]; rfl⟩
  · cases hcw

/-- Settles O4, row by row. -/
theorem legalWordsOfEachRow : Obligations.LegalWordsOfEachRow := fun cw dw =>
  ⟨decode_eq_ok_iff_word dw rfl rfl, decode_eq_ok_iff_word dw rfl rfl, decode_eq_write_iff cw dw,
    decode_eq_ok_iff_word dw rfl rfl, decode_eq_rddig_iff cw dw, decode_eq_ok_iff_word dw rfl rfl,
    decode_eq_ok_iff_word dw rfl rfl, decode_eq_ok_iff_word dw rfl rfl,
    fun ⟨_, h⟩ => by
      obtain ⟨wf, rfl, -⟩ := decode_eq_ok_iff.1 h
      exact encode_mem_legalWords wf,
    fun h => decode_isOk_of_mem_legalWords h dw⟩

/-! ### The assembler and the disassembler -/

theorem disassemble_eq_command_iff {cw dw : Word} {i : Instr} :
    disassemble cw dw = .command i ↔ decode cw dw = .ok i := by
  unfold disassemble
  cases decode cw dw <;> simp

theorem disassemble_of_error {cw dw : Word} {c : Cause} (h : decode cw dw = .error c) :
    disassemble cw dw = .illegal cw dw c := by
  simp only [disassemble, h]

/-- Assembling a chunk makes a WRITE of its bytes (R93, R94). -/
theorem writeChunk_dataBytes (nb : BitVec 3) (dw : Word) :
    writeChunk (dataBytes nb dw) = encode (.write nb (laneWord 32 (dataBytes nb dw))) := by
  simp [writeChunk, length_dataBytes]

/-- The assembled data word holds the lanes a WRITE reads, and 0 above them (R54, R93). -/
theorem dataByte_laneWord_dataBytes {nb : BitVec 3} (legal : nb ≤ 4#3) (dw : Word) {k : Nat}
    (hk : k < 4) : dataByte (laneWord 32 (dataBytes nb dw)) k =
      if k < nb.toNat then dataByte dw k else 0#8 := by
  rw [dataByte_laneWord _ (by rw [length_dataBytes]; exact BitVec.le_def.1 legal) k hk]
  split
  · next read => simp [dataBytes, read]
  · next unread =>
    exact List.getD_eq_default _ _ (by rw [length_dataBytes]; exact Nat.le_of_not_lt unread)

/-- An illegal pair of words is listed as it is, and assembles to itself (R93, R95). -/
theorem assemble_listingLine_illegal (cw dw : Word) (c : Cause) :
    assemble (listingLine (.illegal cw dw c)) = .ok [(cw, dw)] := by
  have fits : ¬(2 ^ 32 ≤ cw.toNat ∨ 2 ^ 32 ≤ dw.toNat) := by
    have := cw.isLt
    have := dw.isLt
    omega
  rw [listingLine, assemble, if_neg fits, BitVec.ofNat_toNat, BitVec.ofNat_toNat,
    BitVec.setWidth_eq, BitVec.setWidth_eq]

/-- A WRITE that is listed assembles to the WRITE of the lanes it reads (R93, R95). -/
theorem assemble_listingLine_write {nb : BitVec 3} (legal : nb ≤ 4#3) (dw : Word) :
    assemble (listingLine (.command (.write nb dw))) =
      .ok [encode (.write nb (laneWord 32 (dataBytes nb dw)))] := by
  have few : ¬4 < nb.toNat := Nat.not_lt.2 (BitVec.le_def.1 legal)
  rw [listingLine, assemble, if_neg few, if_neg (Nat.not_le.2 dw.isLt), BitVec.ofNat_toNat,
    BitVec.ofNat_toNat, BitVec.setWidth_eq, BitVec.setWidth_eq, writeChunk_dataBytes]

/-- A command without a data word that is listed assembles to its encoding (R93, R95). -/
theorem assemble_listingLine_of_not_write {i : Instr} (h : ∀ nb d, i ≠ .write nb d) :
    assemble (listingLine (.command i)) = .ok [((encode i).1, 0#32)] := by
  cases i with
  | write nb d => exact absurd rfl (h nb d)
  | rddig idx =>
    have inRange : ¬7 < idx.toNat := by
      have := idx.isLt
      omega
    rw [listingLine, assemble, if_neg inRange, BitVec.ofNat_toNat, BitVec.setWidth_eq]
    rfl
  | _ => rfl

/-- Settles O9: illegal words come back whole, a WRITE with the lanes it reads, any other command as its
encoding. -/
theorem assembleDisassembleRoundTrip : Obligations.AssembleDisassembleRoundTrip := by
  intro cw dw
  cases hd : decode cw dw with
  | error c =>
    rw [disassemble_of_error hd]
    exact ⟨dw, assemble_listingLine_illegal cw dw c, fun _ _ => rfl, fun _ h => (by cases h),
      fun _ h => (by cases h)⟩
  | ok i =>
    obtain ⟨-, word, -⟩ := decode_eq_ok_iff.1 hd
    rw [disassemble_eq_command_iff.2 hd]
    by_cases isWrite : ∃ nb d, i = .write nb d
    · obtain ⟨nb, d, rfl⟩ := isWrite
      obtain ⟨rfl, legal⟩ := decode_write hd
      refine ⟨laneWord 32 (dataBytes nb d), ?_, fun _ h => (by cases h), ?_,
        fun _ h notWrite => ?_⟩
      · rw [assemble_listingLine_write legal, ← word]
        rfl
      · intro _ h k hk
        cases h
        exact dataByte_laneWord_dataBytes legal d hk
      · cases h
        exact absurd rfl (notWrite nb d)
    · have notWrite : ∀ nb d, i ≠ .write nb d := fun nb d h => isWrite ⟨nb, d, h⟩
      refine ⟨0#32, ?_, fun _ h => (by cases h), fun nb h => ?_, fun _ _ _ => rfl⟩
      · rw [assemble_listingLine_of_not_write notWrite, word]
      · cases h
        exact absurd rfl (notWrite nb dw)

end Sys2Proof.Machine
end

