-- ==== Sys2Proof/Proofs/Responses.lean ====
section
/-! PROOF. What the commands read of their words and answer (30_encoding.md): the lanes a WRITE reads, a WRITE that
no legal word spells, the response word of every command, and the words of the digest (R85, R88, R90, R91). -/

namespace Sys2Proof.Machine

/-! ### The operands of WRITE -/

theorem execWrite_congr {nb : BitVec 3} {dw dw' : Word} (s : State)
    (h : dataBytes nb dw = dataBytes nb dw') : execWrite nb dw s = execWrite nb dw' s := by
  simp only [execWrite, h]

/-- Settles O8: a WRITE reads its data word as the bytes of its lanes. -/
theorem writeIgnoresUnusedLanes : Obligations.WriteIgnoresUnusedLanes := by
  intro nb dw dw' s same
  exact execWrite_congr s (List.map_congr_left fun k hk => same k (List.mem_range.1 hk))

/-- Settles O20: its word is refused for its NB, and exec of it is the exception taken then. -/
theorem writeBeyondFourBytesIsIllegal : Obligations.WriteBeyondFourBytesIsIllegal := by
  intro nb dw s beyond
  have refused : exec (.write nb dw) s = .next (raiseIllegal .badNb s) :=
    if_neg (BitVec.not_le.2 beyond)
  rw [refused]
  refine ⟨_, rfl, ?_⟩
  simp only [transact, decode_encode_write, if_pos beyond]

/-! ### The response words -/

theorem statusWord_getLsbD_zero (s : State) : (statusWord s).getLsbD 0 = s.dvalid := by
  cases hv : s.dvalid <;> simp [statusWord, flagWord, hv]

theorem statusWord_getLsbD_one (s : State) : (statusWord s).getLsbD 1 = s.err := by
  cases hv : s.dvalid <;> cases he : s.err <;> simp [statusWord, flagWord, hv, he]

theorem statusWord_clearEngine (s : State) : statusWord (clearEngine s) = 0#32 := by
  simp [statusWord, blen, flagWord]

/-- Settles O11, command by command. -/
theorem responseOfEveryCommand : Obligations.ResponseOfEveryCommand := by
  intro cw dw s
  unfold transact
  cases hd : decode cw dw with
  | error c => exact ⟨_, rfl, rfl, statusWord_getLsbD_one _⟩
  | ok i =>
    cases i with
    | write nb d =>
      refine ⟨_, execWrite_legal nb d s (decode_write hd).2, ?_⟩
      exact BitVec.toNat_setWidth_of_le (by decide)
    | reset => exact ⟨_, rfl, statusWord_clearEngine s⟩
    | sum => exact ⟨_, rfl, rfl, statusWord_getLsbD_zero _⟩
    | _ => exact ⟨_, rfl, rfl⟩

/-- Digest word i carries byte 4i + k of D in lane k (R91). -/
theorem dataByte_digestWord (d : Block) (idx : BitVec 3) {k : Nat} (hk : k < 4) :
    dataByte (digestWord d idx) k = d.toList.getD (4 * idx.toNat + k) 0#8 := by
  rw [digestWord, dataByte_laneWord _ (List.length_take_le _ _) k hk]
  simp [List.getD_eq_getElem?_getD, hk]

/-- Groups of four entries, laid out one after the other, are the entries in order. -/
theorem flatMap_range_four {α : Type} (f : Nat → α) (n : Nat) :
    ((List.range n).flatMap fun i => (List.range 4).map fun k => f (4 * i + k)) =
      (List.range (4 * n)).map f := by
  induction n with
  | zero => rfl
  | succ n ih =>
    rw [List.range_succ (n := n), List.flatMap_append, ih, Nat.mul_succ, List.range_add,
      List.map_append]
    simp

/-- The lanes of the eight digest words in order are the digest (R91). -/
theorem digestWords_lanes (d : Block) : ((List.range 8).flatMap fun i =>
    (List.range 4).map (dataByte (digestWord d (BitVec.ofNat 3 i)))) = d.toList := by
  have lanes : ∀ i ∈ List.range 8, (List.range 4).map (dataByte (digestWord d (BitVec.ofNat 3 i))) =
      (List.range 4).map fun k => d.toList.getD (4 * i + k) 0#8 := by
    intro i hi
    refine List.map_congr_left fun k hk => ?_
    rw [dataByte_digestWord d _ (List.mem_range.1 hk), BitVec.toNat_ofNat,
      Nat.mod_eq_of_lt (List.mem_range.1 hi)]
  rw [List.flatMap_congr lanes, flatMap_range_four (fun j => d.toList.getD j 0#8)]
  apply List.ext_getElem
  · simp
  · intro j _ hj
    rw [List.getElem_map, List.getElem_range, List.getD_eq_getElem _ _ hj]

/-- Settles O14, lane by lane. -/
theorem rddigReadsDigestInOrder : Obligations.RddigReadsDigestInOrder := by
  refine ⟨fun idx s => ⟨_, rfl, fun k hk => ?_⟩, digestWords_lanes⟩
  have inDigest : 4 * idx.toNat + k < s.d.toList.length := by
    have := idx.isLt
    rw [Vector.length_toList]
    omega
  rw [dataByte_digestWord s.d idx hk, List.getD_eq_getElem _ _ inDigest, Vector.getElem_toList]

end Sys2Proof.Machine
end

