-- ==== Sys2Proof/Proofs/HashProgram.lean ====
section
/-! PROOF. The HASH pseudo-instruction (30_encoding.md R94): the assembled WRITEs carry the message, a SUM after a
message leaves the digest of it in D, and the eight RDDIGs read D out (R91, R166 to R169, R177). -/

namespace Sys2Proof.Machine

/-! ### The digest of a SUM -/

/-- A tail padded with zeros has the integer of its bytes (R166, R167). -/
theorem leInt_padBlock {bs : List Byte} (h : bs.length ≤ 32) :
    leInt (padBlock bs).toList = leInt bs := by
  have padded : (padBlock bs).toList = bs ++ List.replicate (32 - bs.length) 0#8 := by
    apply List.ext_getElem
    · simp only [Vector.length_toList, List.length_append, List.length_replicate]
      omega
    · intro i hi _
      have hi : i < 32 := by simpa using hi
      rw [Vector.getElem_toList, getElem_padBlock bs i hi, List.getD_eq_getElem?_getD,
        List.getElem_append]
      split
      · next inTail => simp [inTail]
      · next past => simp [Nat.le_of_not_lt past]
  have zeros : ∀ n, leInt (List.replicate n 0#8) = 0 := by
    intro n
    induction n with
    | zero => rfl
    | succ n ih => simp [List.replicate_succ, ih]
  rw [padded, leInt_append, zeros, Nat.mul_zero, Nat.add_zero]

/-- The shadow copies after every block of the message m, the padded tail included (R166). -/
structure ShadowHashes (enc : Encrypt) (m : List Byte) (c : Shadow) : Prop where
  h : c.h = messageChain enc m (messageBlocks m)
  l : c.l = BitVec.ofNat 64 (8 * m.length)
  sigma : c.sigma = BitVec.ofNat 256 (messageSum m (messageBlocks m))

/-- The tail of a SUM takes the shadow copies from the full blocks to every block of the message (R166, R174). -/
theorem shadowTail_hashes {enc : Encrypt} {m : List Byte} {s : State} (hs : HashesMessage enc m s)
    (calls : List (List CphCall)) :
    ShadowHashes enc m
      (shadowTail s.encrypt s.b { h := s.h, l := s.l, sigma := s.sigma, calls := calls }) := by
  obtain ⟨encrypt, h, l, sigma, b, -⟩ := hs
  have len : s.b.length = m.length - 32 * (m.length / 32) := by rw [b, List.length_drop]
  by_cases tail : s.b = []
  · have blocks : messageBlocks m = m.length / 32 := by
      rw [tail, List.length_nil] at len
      unfold messageBlocks
      omega
    have bits : 256 * (m.length / 32) = 8 * m.length := by
      rw [tail, List.length_nil] at len
      omega
    rw [tail, shadowTail_nil]
    exact ⟨by rw [blocks, h], by rw [← bits, l], by rw [blocks, sigma]⟩
  · have pos : 0 < s.b.length := List.length_pos_iff.2 tail
    have blocks : messageBlocks m = m.length / 32 + 1 := by
      unfold messageBlocks
      omega
    have bits : 8 * m.length = 256 * (m.length / 32) + 8 * s.b.length := by omega
    have block : (m.drop (32 * (m.length / 32))).take 32 = s.b := by
      rw [← b, List.take_of_length_le (by omega)]
    rw [shadowTail_cons _ _ _ tail]
    refine ⟨?_, ?_, ?_⟩
    · rw [blocks, messageChain, messageBlock, block, encrypt, h]
    · rw [bits, BitVec.ofNat_add, l]
    · rw [blocks, messageSum, block, BitVec.ofNat_add, sigma, checksumAdd, toList_reverseBlock,
        beInt_eq_leInt_reverse, List.reverse_reverse, leInt_padBlock (by omega)]

/-- The final chaining value of a SUM is the digest reversed (R167 to R169, R177). -/
theorem finalize_hashesMessage {enc : Encrypt} {m : List Byte} {s : State}
    (hs : HashesMessage enc m s) : reverseBlock (finalize s).h = gostDigest enc m := by
  obtain rfl : s.encrypt = enc := HashesBlocks.encrypt hs
  obtain ⟨h, l, sigma⟩ := shadowTail_hashes hs []
  simp only [finalize, shadowStep, lengthBlock, checksumBlock, gostDigest, h, l, sigma,
    BitVec.toNat_ofNat]

/-- SUM leaves the digest of the message in D (R165, R169, R177). -/
theorem execSum_hashesMessage {enc : Encrypt} {m : List Byte} {s : State}
    (hs : HashesMessage enc m s) (steady : s.sboxMoved = false) :
    ∃ t, exec .sum s = .next t ∧ t.d = gostDigest enc m ∧ t.dvalid = true :=
  ⟨_, execSum_steady s steady, finalize_hashesMessage hs, rfl⟩

/-! ### The commands of the program -/

theorem transact_encode {i : Instr} (wf : i.wellFormed = true) (s : State) :
    transact (encode i).1 (encode i).2 s = exec i s := by
  simp only [transact, decodeEncodeRoundTrip i wf]

/-- No command makes SBOX move (R236, log 14). -/
theorem transact_sboxMoved {s t : State} {r : Except Cause Instr} (he : CommandEffect s r t)
    (steady : s.sboxMoved = false) : t.sboxMoved = false := by
  cases he with
  | illegal c => simpa using steady
  | read i rw _ => simpa using steady
  | reset => simp
  | write nb dw _ =>
    obtain ⟨_, _, _, _, _, _, e⟩ := appendBytes_frame s (dataBytes nb dw)
    rw [e]
    exact steady
  | sum =>
    obtain ⟨d, free, e⟩ := writeDigest_frame (finalize s).h s
    rw [e]
    exact steady

theorem runCommands_sboxMoved {cs : List (Word × Word)} {s t : State}
    (h : runCommands cs s = .next t) (steady : s.sboxMoved = false) : t.sboxMoved = false := by
  induction cs generalizing s with
  | nil =>
    cases h
    exact steady
  | cons c cs ih =>
    obtain ⟨u, hu, he⟩ := transact_effect c.1 c.2 s
    rw [runCommands_cons cs hu] at h
    exact ih h (transact_sboxMoved he steady)

theorem runCommands_append {cs : List (Word × Word)} {s t : State} (cs' : List (Word × Word))
    (h : runCommands cs s = .next t) : runCommands (cs ++ cs') s = runCommands cs' t := by
  induction cs generalizing s with
  | nil =>
    cases h
    rfl
  | cons c cs ih =>
    obtain ⟨u, hu, -⟩ := transact_effect c.1 c.2 s
    rw [runCommands_cons cs hu] at h
    rw [List.cons_append, runCommands_cons _ hu, ih h]

/-- RESET, any commands, and SUM leave in D the digest of the message those commands write (R171, R177). -/
theorem runCommands_reset_sum (cs : List (Word × Word)) (s : State) :
    ∃ t, runCommands (encode .reset :: (cs ++ [encode .sum])) s = .next t ∧
      t.d = gostDigest s.encrypt (messageOf cs) ∧ t.dvalid = true := by
  have cleared : HashesMessage s.encrypt [] (respondStatus (clearEngine s)) :=
    { clearEngine_hashesMessage s with }
  obtain ⟨u, hu, hashed, -⟩ := runCommands_hashesMessage cs cleared
  have steady : u.sboxMoved = false := runCommands_sboxMoved hu rfl
  obtain ⟨t, summed, digest⟩ := execSum_hashesMessage hashed steady
  refine ⟨t, ?_, digest⟩
  rw [runCommands_cons _ (transact_encode (i := .reset) rfl s), runCommands_append _ hu,
    runCommands_cons _ ((transact_encode (i := .sum) rfl u).trans summed)]
  rfl

/-! ### The WRITEs of a message -/

theorem dataBytes_laneWord {bs : List Byte} (h : bs.length ≤ 4) :
    dataBytes (BitVec.ofNat 3 bs.length) (laneWord 32 bs) = bs := by
  have len : (BitVec.ofNat 3 bs.length).toNat = bs.length := by
    rw [BitVec.toNat_ofNat]
    omega
  apply List.ext_getElem
  · rw [length_dataBytes, len]
  · intro k _ hk
    simp [dataBytes, dataByte_laneWord bs h k (by omega), hk]

/-- A chunk's WRITE appends the chunk to the message (R93, R94). -/
theorem messageAfter_writeChunk (m : List Byte) {bs : List Byte} (h : bs.length ≤ 4) :
    messageAfter m (writeChunk bs) = m ++ bs := by
  have legal : (Instr.write (BitVec.ofNat 3 bs.length) (laneWord 32 bs)).wellFormed = true := by
    simp only [Instr.wellFormed, BitVec.le_def, BitVec.toNat_ofNat, decide_eq_true_eq]
    omega
  simp only [messageAfter, writeChunk, decodeEncodeRoundTrip _ legal, dataBytes_laneWord h]

/-- The first n chunks of four bytes write the first 4n bytes (R94). -/
theorem messageOf_writeChunks (bs : List Byte) (n : Nat) :
    messageOf ((List.range n).map fun t => writeChunk ((bs.drop (4 * t)).take 4)) =
      bs.take (4 * n) := by
  induction n with
  | zero => rfl
  | succ n ih =>
    unfold messageOf at ih ⊢
    rw [List.range_succ, List.map_append, List.foldl_append, ih, Nat.mul_succ, List.take_add]
    exact messageAfter_writeChunk _ (List.length_take_le _ _)

theorem messageOf_writeCommands (bs : List Byte) : messageOf (writeCommands bs) = bs := by
  rw [writeCommands, messageOf_writeChunks, List.take_of_length_le (by omega)]

/-! ### The responses of the program -/

/-- Commands as events at the command port. -/
def commandEvents (cs : List (Word × Word)) : List Event := cs.map fun c => .command c.1 c.2

theorem commandEvents_append (cs cs' : List (Word × Word)) :
    commandEvents (cs ++ cs') = commandEvents cs ++ commandEvents cs' :=
  List.map_append

theorem applyEvents_commandEvents (cs : List (Word × Word)) (s : State) :
    applyEvents (commandEvents cs) s = runCommands cs s := by
  induction cs generalizing s with
  | nil => rfl
  | cons c cs ih =>
    obtain ⟨t, ht, -⟩ := transact_effect c.1 c.2 s
    rw [runCommands_cons cs ht, ← ih t]
    exact applyEvents_cons_next _ ht

/-- Every command gets one response (R90). -/
theorem length_responsesOf_commandEvents (cs : List (Word × Word)) (s : State) :
    (responsesOf (commandEvents cs) s).length = cs.length := by
  induction cs generalizing s with
  | nil => rfl
  | cons c cs ih =>
    obtain ⟨t, ht, -⟩ := transact_effect c.1 c.2 s
    rw [commandEvents, List.map_cons, responsesOf_cons _ ht, List.length_cons, List.length_cons]
    exact congrArg (· + 1) (ih t)

/-- RDDIGs answer the words of D, which they leave as it is (R91, R182). -/
theorem responsesOf_rddigs (idxs : List (BitVec 3)) (s : State) :
    responsesOf (commandEvents (idxs.map fun idx => encode (.rddig idx))) s =
      idxs.map (digestWord s.d) := by
  induction idxs generalizing s with
  | nil => rfl
  | cons idx idxs ih =>
    have answer := transact_encode (i := .rddig idx) rfl s
    rw [commandEvents, List.map_cons, List.map_cons, responsesOf_cons _ answer, List.map_cons]
    exact congrArg _ (ih _)

theorem readDigestCommands_eq : readDigestCommands =
    ((List.range 8).map (BitVec.ofNat 3)).map fun idx => encode (.rddig idx) := by
  rw [List.map_map]
  rfl

/-- HASH is the commands up to its SUM, then the eight RDDIGs (R94). -/
theorem hashCommands_eq (bs : List Byte) : hashCommands bs =
    (encode .reset :: (writeCommands bs ++ [encode .sum])) ++ readDigestCommands := by
  simp [hashCommands]

/-- Settles O47: the program up to its SUM leaves the digest in D, and the eight responses after it are the words
of D. -/
theorem hashProgramReadsOutGost : Obligations.HashProgramReadsOutGost := by
  intro s m
  obtain ⟨t, run, digest, -⟩ := runCommands_reset_sum (writeCommands m) s
  rw [messageOf_writeCommands] at digest
  have responses : responsesOf (commandEvents (hashCommands m)) s =
      responsesOf (commandEvents (encode .reset :: (writeCommands m ++ [encode .sum]))) s ++
        ((List.range 8).map (BitVec.ofNat 3)).map (digestWord (gostDigest s.encrypt m)) := by
    rw [hashCommands_eq, commandEvents_append,
      responsesOf_append _ ((applyEvents_commandEvents _ s).trans run), readDigestCommands_eq,
      responsesOf_rddigs, digest]
  have before : (responsesOf (commandEvents (encode .reset :: (writeCommands m ++ [encode .sum])))
      s).length = 2 + (writeCommands m).length := by
    simp only [length_responsesOf_commandEvents, List.length_cons, List.length_append,
      List.length_nil]
    omega
  change ((responsesOf (commandEvents (hashCommands m)) s).drop _).flatMap _ = _
  rw [responses, List.drop_left' before, List.flatMap_map, List.flatMap_map]
  exact digestWords_lanes _

end Sys2Proof.Machine
end

