-- ==== Sys2Proof/Proofs/BlockAlgebra.lean ====
section
/-! PROOF. The block algebra (40_block_algebra.md R110 to R118): the reversals and their integer view, A and χ as
shifts of the block behind a feedback limb or word, P as the transposition of the byte matrix. -/

namespace Sys2Proof.Machine

/-! ### The reversals -/

theorem reverseBlock_reverseBlock (a : Block) : reverseBlock (reverseBlock a) = a := by
  ext i hi : 1
  simp [show 31 - (31 - i) = i by omega]

theorem reverse8_reverse8 (q : Quarter) : reverse8 (reverse8 q) = q := by
  ext i hi : 1
  simp [show 7 - (7 - i) = i by omega]

/-- Settles O35, byte by byte. -/
theorem reversalsAreInvolutions : Obligations.ReversalsAreInvolutions :=
  ⟨fun a => ⟨getElem_reverseBlock a, reverseBlock_reverseBlock a⟩,
    fun q => ⟨getElem_reverse8 q, reverse8_reverse8 q⟩⟩

/-- Settles O39: `be_int` reads a list from its other end. -/
theorem reverseSwapsIntegerViews : Obligations.ReverseSwapsIntegerViews := by
  intro y
  rw [toList_reverseBlock, beInt_eq_leInt_reverse, List.reverse_reverse]

/-! ### Shifts of a block and linear functions -/

/-- Two blocks agree when their first n bytes do and the bytes after those do. -/
theorem block_ext_shift {a b : Block} {n m : Nat} (room : n + m = 32)
    (head : ∀ i (_ : i < n), a[i] = b[i])
    (tail : ∀ i (_ : i < m), a[n + i] = b[n + i]) : a = b := by
  ext i hi : 1
  by_cases h : i < n
  · exact head i h
  · obtain ⟨j, rfl⟩ := Nat.exists_eq_add_of_le (not_lt.mp h)
    exact tail j (by omega)

/-- The bytes of a block that holds n bytes and after them the bytes of y, as far as there is room. -/
theorem toList_eq_append_take {y z : Block} {front : List Byte} {n m : Nat}
    (room : n + m = 32) (len : front.length = n) (head : ∀ i (_ : i < n), z[i] = front[i])
    (tail : ∀ i (_ : i < m), z[n + i] = y[i]) : z.toList = front ++ y.toList.take m := by
  subst len
  apply List.ext_getElem
  · rw [Vector.length_toList, List.length_append, List.length_take, Vector.length_toList]
    omega
  · intro i hz _
    have hi : i < 32 := by simpa using hz
    by_cases h : i < front.length
    · simpa [h] using head i h
    · obtain ⟨j, rfl⟩ := Nat.exists_eq_add_of_le (not_lt.mp h)
      simpa using tail j (by omega)

/-- Consecutive pieces of w entries, laid out one after the other, are the front of the list. -/
theorem flatMap_drop_take {α : Type} (l : List α) (w n : Nat) :
    ((List.range n).flatMap fun k => (l.drop (w * k)).take w) = l.take (w * n) := by
  induction n with
  | zero => simp
  | succ n ih =>
    rw [List.range_succ, List.flatMap_append, ih, Nat.mul_succ, List.take_add]
    simp

theorem xorBlock_self (a : Block) : xorBlock a a = zeroBlock := by
  ext i hi : 1
  simp

/-- A function that is linear over XOR maps zeros to zeros. -/
theorem map_zeroBlock_of_linear {f : Block → Block}
    (linear : ∀ a b, f (xorBlock a b) = xorBlock (f a) (f b)) : f zeroBlock = zeroBlock := by
  rw [← xorBlock_self zeroBlock, linear, xorBlock_self, xorBlock_self]

/-! ### A -/

theorem transA_xorBlock (a b : Block) :
    transA (xorBlock a b) = xorBlock (transA a) (transA b) := by
  apply block_ext_shift (n := 8) (m := 24) rfl
  · intro i hi
    simp only [getElem_transA_feedback _ i hi, getElem_xorBlock]
    ac_rfl
  · intro i hi
    simp only [getElem_transA_shift _ i hi, getElem_xorBlock]

/-- Limb y_k of a block, `Y[32 − 8k .. 40 − 8k]` (R114). -/
def limbOf (y : Block) (k : Nat) : List Byte := (y.toList.drop (32 - 8 * k)).take 8

/-- The feedback limb of A: y1 ⊕ y2 (R114). -/
def feedbackLimb (y : Block) : List Byte := List.zipWith (· ^^^ ·) (limbOf y 1) (limbOf y 2)

theorem length_feedbackLimb (y : Block) : (feedbackLimb y).length = 8 := by
  simp [feedbackLimb, limbOf]

theorem getElem_transA_feedbackLimb (y : Block) (i : Nat) (hi : i < 8) :
    (transA y)[i] = (feedbackLimb y)[i]'(by rwa [length_feedbackLimb]) := by
  rw [getElem_transA_feedback y i hi, BitVec.xor_comm]
  simp [feedbackLimb, limbOf]

theorem append_limbOf (y : Block) : limbOf y 4 ++ limbOf y 3 ++ limbOf y 2 = y.toList.take 24 := by
  simpa [List.range_succ, limbOf] using flatMap_drop_take y.toList 8 3

/-- A in limb form: the feedback limb, then y4 ‖ y3 ‖ y2 (R114). -/
theorem toList_transA (y : Block) : (transA y).toList =
    feedbackLimb y ++ (limbOf y 4 ++ limbOf y 3 ++ limbOf y 2) := by
  rw [append_limbOf]
  exact toList_eq_append_take rfl (length_feedbackLimb y) (getElem_transA_feedbackLimb y)
    (getElem_transA_shift y)

/-- Settles O36: A shifts by one limb behind a feedback limb, and both parts are linear. -/
theorem transAByBytesAndLimbs : Obligations.TransAByBytesAndLimbs := by
  refine ⟨fun y => ⟨getElem_transA_feedback y, getElem_transA_shift y, ?_⟩,
    map_zeroBlock_of_linear transA_xorBlock, transA_xorBlock⟩
  intro limb hlimb
  obtain rfl : limb = limbOf y := funext hlimb
  simpa only [feedbackLimb, List.append_assoc] using toList_transA y

/-! ### P -/

theorem getElem_permP_transposed (y : Block) (r c : Nat) (hr : r < 8) (hc : c < 4) :
    (permP y)[4 * r + c] = y[8 * c + r] := by
  simp [getElem_permP, show (4 * r + c) % 4 = c by omega, show (4 * r + c) / 4 = r by omega]

/-- The other transposition: byte 8c + r comes from byte 4r + c. -/
def permPInverse (z : Block) : Block := Vector.ofFn fun i => z[4 * (i.val % 8) + i.val / 8]

theorem permPInverse_permP (y : Block) : permPInverse (permP y) = y := by
  ext i hi : 1
  simp [permPInverse, getElem_permP_transposed y (i % 8) (i / 8) (by omega) (by omega),
    Nat.div_add_mod]

theorem permP_permPInverse (z : Block) : permP (permPInverse z) = z := by
  ext i hi : 1
  simp [permPInverse, getElem_permP, show (8 * (i % 4) + i / 4) % 8 = i / 4 by omega,
    show (8 * (i % 4) + i / 4) / 8 = i % 4 by omega, Nat.div_add_mod]

theorem permP_bijective : Function.Bijective permP :=
  Function.bijective_iff_has_inverse.mpr ⟨permPInverse, permPInverse_permP, permP_permPInverse⟩

theorem permP_xorBlock (a b : Block) : permP (xorBlock a b) = xorBlock (permP a) (permP b) := by
  ext i hi : 1
  simp [getElem_permP]

/-- The block whose bytes are their own indices: where P takes its bytes is P's index map. -/
def indexBlock : Block := Vector.ofFn fun i => BitVec.ofNat 8 i.val

theorem toNat_getElem_indexBlock (i : Nat) (hi : i < 32) : indexBlock[i].toNat = i := by
  rw [indexBlock, Vector.getElem_ofFn, BitVec.toNat_ofNat, Nat.mod_eq_of_lt (by omega)]

theorem permP_fixes_iff (i : Nat) (hi : i < 32) :
    (∀ y : Block, (permP y)[i] = y[i]) ↔ i = 0 ∨ i = 31 := by
  constructor
  · intro fixed
    have same := congrArg BitVec.toNat (fixed indexBlock)
    rw [getElem_permP, toNat_getElem_indexBlock, toNat_getElem_indexBlock] at same
    omega
  · rintro (rfl | rfl) y <;> exact getElem_permP y _ hi

/-- P twice takes byte 1 from byte 2. -/
theorem permP_permP_indexBlock_ne : permP (permP indexBlock) ≠ indexBlock := by
  intro same
  have byteOne : (permP (permP indexBlock))[1].toNat = 1 := by
    rw [same, toNat_getElem_indexBlock]
  rw [getElem_permP, getElem_permP, toNat_getElem_indexBlock] at byteOne
  omega

/-- Settles O37: the index map and its inverse; the index block shows which bytes move. -/
theorem permPTransposes : Obligations.PermPTransposes :=
  ⟨getElem_permP_transposed, permP_bijective, ⟨indexBlock, permP_permP_indexBlock_ne⟩,
    map_zeroBlock_of_linear permP_xorBlock, permP_fixes_iff⟩

/-! ### χ -/

theorem chi_xorBlock (a b : Block) : chi (xorBlock a b) = xorBlock (chi a) (chi b) := by
  apply block_ext_shift (n := 2) (m := 30) rfl
  · intro i hi
    simp only [getElem_chi_feedback _ i hi, getElem_xorBlock]
    ac_rfl
  · intro i hi
    simp only [getElem_chi_shift _ i hi, getElem_xorBlock]

/-- Of ones, the six words of the feedback cancel and every other byte stays (R116). -/
theorem chi_ones : chi (Vector.replicate 32 0xff#8) =
    Vector.ofFn fun i : Fin 32 => if i.val < 2 then 0x00#8 else 0xff#8 := by
  apply block_ext_shift (n := 2) (m := 30) rfl
  · intro i hi
    simp [getElem_chi_feedback _ i hi, Nat.le_of_lt_succ hi]
  · intro i hi
    simp [getElem_chi_shift _ i hi, show ¬2 + i ≤ 1 by omega]

/-- Word ω_k of a block, `Y[32 − 2k .. 34 − 2k]` (R116). -/
def wordOf (y : Block) (k : Nat) : List Byte := (y.toList.drop (32 - 2 * k)).take 2

theorem length_wordOf (y : Block) (k : Nat) :
    (wordOf y k).length = min 2 (32 - (32 - 2 * k)) := by
  simp [wordOf]

theorem getElem_wordOf (y : Block) (k i : Nat) (h : i < (wordOf y k).length) :
    (wordOf y k)[i] = y[32 - 2 * k + i]'(by rw [length_wordOf] at h; omega) := by
  simp [wordOf]

/-- The feedback word of χ: ω1 ⊕ ω2 ⊕ ω3 ⊕ ω4 ⊕ ω13 ⊕ ω16 (R116). -/
def feedbackWord (y : Block) : List Byte :=
  List.zipWith (· ^^^ ·) (List.zipWith (· ^^^ ·) (List.zipWith (· ^^^ ·)
    (List.zipWith (· ^^^ ·) (List.zipWith (· ^^^ ·) (wordOf y 1) (wordOf y 2)) (wordOf y 3))
      (wordOf y 4)) (wordOf y 13)) (wordOf y 16)

theorem length_feedbackWord (y : Block) : (feedbackWord y).length = 2 := by
  simp [feedbackWord, length_wordOf]

theorem getElem_chi_feedbackWord (y : Block) (i : Nat) (hi : i < 2) :
    (chi y)[i] = (feedbackWord y)[i]'(by rwa [length_feedbackWord]) := by
  simp only [getElem_chi_feedback y i hi, feedbackWord, List.getElem_zipWith, getElem_wordOf,
    Nat.reduceMul, Nat.reduceSub, Nat.zero_add]
  ac_rfl

theorem flatMap_wordOf (y : Block) :
    ((List.range 15).flatMap fun k => wordOf y (16 - k)) = y.toList.take 30 := by
  rw [← flatMap_drop_take y.toList 2 15]
  refine List.flatMap_congr fun k hk => ?_
  have : k < 15 := List.mem_range.mp hk
  rw [wordOf, show 32 - 2 * (16 - k) = 2 * k by omega]

/-- χ in word form: the feedback word, then ω16 ‖ … ‖ ω2 (R116). -/
theorem toList_chi (y : Block) : (chi y).toList =
    feedbackWord y ++ (List.range 15).flatMap fun k => wordOf y (16 - k) := by
  rw [flatMap_wordOf]
  exact toList_eq_append_take rfl (length_feedbackWord y) (getElem_chi_feedbackWord y)
    (getElem_chi_shift y)

/-- Settles O38: χ shifts by one word behind a feedback word, and both parts are linear. -/
theorem chiByWords : Obligations.ChiByWords := by
  refine ⟨?_, chi_xorBlock, map_zeroBlock_of_linear chi_xorBlock, chi_ones⟩
  intro y word hword
  obtain rfl : word = wordOf y := funext hword
  exact toList_chi y

end Sys2Proof.Machine
end

