-- ==== Sys2Proof/Proofs/KeySchedule.lean ====
section
/-! PROOF. The key-schedule generator in closed form (41_key_schedule.md R130 to R134): V takes two applications
of A per round, and only round 3 adds a constant to U. -/

namespace Sys2Proof.Machine

/-- Adding a round constant that is zero changes nothing (C2 and C4 of R130). -/
theorem xorBlock_zeroBlock (a : Block) : xorBlock a zeroBlock = a := by
  ext i hi : 1
  simp

theorem roundConst_three : roundConst 3 = constC3 := rfl

theorem roundConst_of_ne_three {j : Nat} (hj : j ≠ 3) : roundConst j = zeroBlock := if_neg hj

theorem getElem_keyGen (h m : Block) (n : Nat) (hn : n < 4) :
    (keyGen h m)[n] = permP (xorBlock (scheduleU h n) (scheduleV m n)) := by
  simp [keyGen, roundKey]

theorem scheduleV_eq_iterate_transA (m : Block) (n : Nat) : scheduleV m n = transA^[2 * n] m := by
  induction n with
  | zero => rfl
  | succ n ih =>
    rw [scheduleV, ih, Nat.mul_succ, Function.iterate_succ_apply', Function.iterate_succ_apply']

/-- The step of U into any round j = n + 2 but the third is A alone. -/
theorem scheduleU_succ_of_ne_one (h : Block) {n : Nat} (hn : n ≠ 1) :
    scheduleU h (n + 1) = transA (scheduleU h n) := by
  rw [scheduleU, roundConst_of_ne_three (by omega), xorBlock_zeroBlock]

/-- U2 of R134. -/
theorem scheduleU_one (h : Block) : scheduleU h 1 = transA h :=
  scheduleU_succ_of_ne_one h (n := 0) (by decide)

/-- U3 of R134. -/
theorem scheduleU_two (h : Block) : scheduleU h 2 = xorBlock (transA (transA h)) constC3 := by
  rw [scheduleU, scheduleU_one, roundConst_three]

/-- U4 of R134. -/
theorem scheduleU_three (h : Block) :
    scheduleU h 3 = transA (xorBlock (transA (transA h)) constC3) := by
  rw [scheduleU_succ_of_ne_one h (n := 2) (by decide), scheduleU_two]

/-- Settles O40: the closed forms of U2, U3, U4 and of V, put into each round's key. -/
theorem keyScheduleClosedForm : Obligations.KeyScheduleClosedForm := by
  intro h m
  simp only [getElem_keyGen, scheduleV_eq_iterate_transA]
  refine ⟨rfl, ?_, ?_, ?_⟩
  · rw [scheduleU_one]
  · rw [scheduleU_two]
  · rw [scheduleU_three]

end Sys2Proof.Machine
end

