-- ==== Sys2Proof/Proofs/CipherAdapter.lean ====
section
/-! PROOF. The cipher adapter (42_cipher_adapter.md): where each round's quarter, key and answer come from and go,
and the cipher port at every edge of a request (R142 to R146). -/

namespace Sys2Proof.Machine

/-! ### The slots of S -/

theorem getElem_keyGen_eq_roundKey (h m : Block) (j : Fin 4) :
    (keyGen h m)[j.val] = roundKey h m j := by
  simp [keyGen]

/-- The input of a round's call is its quarter of H from the last byte to the first (R142, R143). -/
theorem getElem_roundCall_pin (h m : Block) (j : Fin 4) (k : Nat) (hk : k < 8) :
    (roundCall h m j).pin[k] = h[24 - 8 * j.val + (7 - k)] := by
  simp [roundCall, getElem_quarterOf]

/-- The answer to a round's call lies in the slot of its quarter, from the last byte to the first (R144). -/
theorem getElem_sBlock_slot (enc : Encrypt) (h m : Block) (j : Fin 4) (k : Nat) (hk : k < 8) :
    (sBlock enc h m)[24 - 8 * j.val + k] =
      (enc (roundCall h m j).key (roundCall h m j).pin)[7 - k] := by
  have round : (⟨3 - (24 - 8 * j.val + k) / 8, by omega⟩ : Fin 4) = j :=
    Fin.ext (by simp only; omega)
  have byte : (24 - 8 * j.val + k) % 8 = k := by omega
  simp only [getElem_sBlock, round, byte, encryptRound, getElem_reverse8]

/-- Settles O41: the block enciphered in round j is the input of that round's call, and its answer is in the
round's slot. -/
theorem sBlockSlots : Obligations.SBlockSlots := by
  intro enc h m j j_pos j_le pin hpin k hk
  obtain ⟨n, rfl⟩ := Nat.exists_eq_add_of_le' j_pos
  have slot : 32 - 8 * (n + 1) = 24 - 8 * n := by omega
  have hround := getElem_sBlock_slot enc h m ⟨n, by omega⟩ k hk
  have hkey := getElem_keyGen_eq_roundKey h m ⟨n, by omega⟩
  have hinput : pin = (roundCall h m ⟨n, by omega⟩).pin := by
    ext i hi : 1
    simp only [hpin i hi, getElem_roundCall_pin, slot]
  simp only [slot, Nat.add_sub_cancel, hround, hkey, hinput, roundCall]

/-! ### The call on the port -/

/-- Which of a Step's unanswered calls is on the port, or goes on it next (R146, log 8). -/
def pickIndex (calls : List CphCall) : Nat :=
  Config.cphPick (calls.map fun c => (c.key, c.pin)) % calls.length

theorem pickIndex_lt {calls : List CphCall} (h : calls ≠ []) : pickIndex calls < calls.length :=
  Nat.mod_lt _ (List.length_pos_iff.2 h)

theorem currentCall_cons {s : State} {calls : List CphCall} {later : List (List CphCall)}
    (todo : s.cphTodo = calls :: later) : currentCall s = calls[pickIndex calls]? := by
  simp only [currentCall, todo, pickIndex]

/-- An answered call is taken off its Step, and a Step whose only call it was off the calls left (R145). -/
theorem todoAfter_cons {s : State} {calls : List CphCall} {later : List (List CphCall)}
    (todo : s.cphTodo = calls :: later) (h : calls ≠ []) :
    todoAfter s =
      if calls.length = 1 then later else calls.eraseIdx (pickIndex calls) :: later := by
  have lastCall : calls.eraseIdx (pickIndex calls) = [] ↔ calls.length = 1 := by
    have lt := pickIndex_lt h
    rw [← List.length_eq_zero_iff, List.length_eraseIdx_of_lt lt]
    omega
  simp only [pickIndex] at lastCall ⊢
  simp only [todoAfter, todo, lastCall]

/-- An answer takes one call off those left (R145). -/
theorem callsLeft_of_answered {s t : State} {calls : List CphCall} {later : List (List CphCall)}
    (todo : s.cphTodo = calls :: later) (h : calls ≠ []) (answered : t.cphTodo = todoAfter s) :
    callsLeft t + 1 = callsLeft s := by
  have lt := pickIndex_lt h
  rw [callsLeft, callsLeft, answered, todoAfter_cons todo h, todo]
  split
  next one =>
    rw [List.map_cons, List.sum_cons, one, Nat.add_comm]
  next =>
    rw [List.map_cons, List.sum_cons, List.map_cons, List.sum_cons, List.length_eraseIdx_of_lt lt]
    omega

/-- A request up shows its call on the port (R145). -/
theorem cphOffered_request {p : Pins} {s : State} {c : CphCall} (call : currentCall s = some c)
    (req : s.cphReq = true) (rst : p.rst = false) :
    cphOffered p s = some (laneWord 256 c.key.toList, laneWord 64 c.pin.toList) := by
  simp [cphOffered, call, req, rst]

/-- SBOX not moved, the right answer is CIPHER's (R145, log 11). -/
theorem answerRight_iff {p : Pins} {c : CphCall} {s : State} (steady : s.sboxMoved = false) :
    answerRight p c s = true ↔
      p.cphOut = laneWord 64 (Config.cipher s.sbox c.key c.pin).toList := by
  rw [answerRight, steady, Bool.false_or, decide_eq_true_iff, State.encrypt]

/-! ### The edges of a request -/

theorem SameEngine.symm {s t : State} (e : SameEngine s t) : SameEngine t s := by
  cases e
  constructor <;> symm <;> assumption

/-- With the hold kept, rst low and SBOX steady, an edge in flight is the edge of the command (R57). -/
theorem step_busy {s : State} {p : Pins} {rest : List Pins} {cw : Word} {n : Nat}
    (inputs : s.inputs = p :: rest) (busy : s.phase = .busy cw n) (rst : p.rst = false)
    (sbox : p.sbox = none) (hold : ∀ c, s.held = some c → offered p = some c) :
    step s = busyEdge p cw n { s with inputs := rest, held := offered p } := by
  rw [step_cons s p rest inputs, clockEdge_run p { s with inputs := rest } hold rst,
    driveSbox_steady p _ sbox]
  simp only [runEdge, busy]

section
variable {p : Pins} {cw : Word} {n : Nat} {s : State} {c : CphCall}

theorem busyEdge_raise (call : currentCall s = some c) (req : s.cphReq = false) :
    busyEdge p cw n s = .next { s with phase := .busy cw (n + 1), cphReq := true } := by
  simp [busyEdge, call, req]

theorem busyEdge_hold (call : currentCall s = some c) (req : s.cphReq = true)
    (ack : p.cphAck = false) :
    busyEdge p cw n s = .next { s with phase := .busy cw (n + 1) } := by
  simp [busyEdge, call, req, ack]

theorem busyEdge_answer (call : currentCall s = some c) (req : s.cphReq = true)
    (ack : p.cphAck = true) (right : answerRight p c s = true) :
    busyEdge p cw n s = .next { s with
      phase := .busy cw (n + 1), cphReq := false, cphTodo := todoAfter s } := by
  simp [busyEdge, call, req, ack, right]

theorem busyEdge_wrong (call : currentCall s = some c) (req : s.cphReq = true)
    (ack : p.cphAck = true) (wrong : ¬ answerRight p c s = true) :
    busyEdge p cw n s = .refused .cipherAnswerWrong := by
  simp [busyEdge, call, req, ack, wrong]

end

/-- Settles O59: the edge is the command's own, and its call is the one picked of the earliest Step; by whether a
request is up, is acknowledged, and is answered as CIPHER does. -/
theorem cipherRequestProtocol : Obligations.CipherRequestProtocol := by
  intro s p rest cw n inv inputs busy left rst sbox steady hold
  obtain ⟨calls, later, todo⟩ := List.exists_cons_of_ne_nil left
  have calls_ne : calls ≠ [] := fun empty => inv.calls (by simp [todo, empty])
  have picked := List.getElem?_eq_getElem (pickIndex_lt calls_ne)
  have call := (currentCall_cons todo).trans picked
  rw [step_busy inputs busy rst sbox hold]
  refine ⟨_, calls, later, pickIndex calls, todo, picked, fun idle => ?raise,
    fun req => ⟨cphOffered_request call req rst, fun ack => ?hold, fun ack right => ?answer,
      fun ack wrong => ?wrong⟩⟩
  case raise =>
    exact ⟨_, busyEdge_raise call idle, (sameEngine_port s _ _ _ _ _).symm, rfl,
      cphOffered_request call rfl rfl⟩
  case hold =>
    exact ⟨_, busyEdge_hold call req ack, (sameEngine_port s _ _ _ _ _).symm, rfl,
      (cphOffered_request call req rfl).trans (cphOffered_request call req rst).symm⟩
  case answer =>
    exact ⟨_, busyEdge_answer call req ack ((answerRight_iff steady).2 right),
      (sameEngine_port s _ _ _ _ _).symm, rfl, todoAfter_cons todo calls_ne,
      callsLeft_of_answered todo calls_ne rfl⟩
  case wrong =>
    exact busyEdge_wrong call req ack fun right => wrong ((answerRight_iff steady).1 right)

end Sys2Proof.Machine
end

