-- ==== Sys2Proof/Proofs/Compression.lean ====
section
/-! PROOF. The compression step (43_compression_step.md): its iterations of χ counted, each XOR carried out of
them (R150, R151). -/

namespace Sys2Proof.Machine

/-- The body of Step (R150), for proofs to rewrite with: `compress` is irreducible. -/
theorem compress_eq (enc : Encrypt) (h m : Block) : compress enc h m =
    chiIter 61 (xorBlock (chi (xorBlock (chiIter 12 (sBlock enc h m)) m)) h) := by
  unfold compress
  rfl

/-- χ^n is linear over XOR, as χ is (R116, R117). -/
theorem chiIter_xorBlock (n : Nat) (a b : Block) :
    chiIter n (xorBlock a b) = xorBlock (chiIter n a) (chiIter n b) := by
  induction n with
  | zero => rfl
  | succ n ih => rw [chiIter, ih, chi_xorBlock, chiIter, chiIter]

/-- Iterations of χ that no XOR parts add up (R117). -/
theorem chiIter_chiIter (k n : Nat) (y : Block) : chiIter k (chiIter n y) = chiIter (k + n) y := by
  induction k with
  | zero => rw [chiIter, Nat.zero_add]
  | succ k ih => rw [chiIter, ih, Nat.succ_add, chiIter]

theorem chiIter_chi (n : Nat) (y : Block) : chiIter n (chi y) = chiIter (n + 1) y :=
  chiIter_chiIter n 1 y

/-- Settles O42: by linearity the XORs come out of the iterations, and the iterations each of S, M and H has
been through add up: 61 + 1 + 12, 61 + 1 and 61. -/
theorem compressClosedForm : Obligations.CompressClosedForm := by
  intro enc h m
  calc compress enc h m
    _ = chiIter 61 (xorBlock (chi (xorBlock (chiIter 12 (sBlock enc h m)) m)) h) :=
      compress_eq enc h m
    _ = xorBlock (xorBlock (chiIter 61 (chi (chiIter 12 (sBlock enc h m)))) (chiIter 61 (chi m)))
          (chiIter 61 h) := by
      simp only [chi_xorBlock, chiIter_xorBlock]
    _ = xorBlock (xorBlock (chiIter 74 (sBlock enc h m)) (chiIter 62 m)) (chiIter 61 h) := by
      simp only [chiIter_chi, chiIter_chiIter, Nat.reduceAdd]

end Sys2Proof.Machine
end

