-- ==== Sys2Proof/Proofs/Streaming.lean ====
section
/-! PROOF. The streaming commands (44_streaming.md R161 to R177): the arithmetic of an absorbed block, the blocks
a SUM forms, and what WRITE, SUM and RESET do to the hash state. -/

namespace Sys2Proof.Machine

/-! ### The counters of an absorbed block -/

theorem toNat_checksumAdd (sigma : BitVec 256) (m : Block) :
    (checksumAdd sigma m).toNat = (sigma.toNat + beInt m.toList) % 2 ^ 256 := by
  rw [checksumAdd, BitVec.toNat_add, BitVec.toNat_ofNat, Nat.add_mod_mod]

theorem beInt_block_lt (m : Block) : beInt m.toList < 2 ^ 256 := by
  have bound := beInt_lt m.toList
  rw [Vector.length_toList] at bound
  exact bound.trans_eq (by norm_num)

/-- Settles O27: both summands are below 2^256, so one subtraction reduces their sum. -/
theorem checksumDropsOneCarry : Obligations.ChecksumDropsOneCarry := by
  intro sigma m
  have hv := beInt_block_lt m
  have hsigma := sigma.isLt
  have sum := toNat_checksumAdd sigma m
  refine ⟨beInt m.toList, rfl, hv, ?_, sum⟩
  rw [sum]
  split
  · next carry => rw [Nat.mod_eq_sub_mod carry, Nat.mod_eq_of_lt (by omega)]
  · next noCarry => rw [Nat.mod_eq_of_lt (by omega), Nat.sub_zero]

theorem counterAdd_eq_ofNat (l : BitVec 64) : counterAdd l = BitVec.ofNat 64 (l.toNat + 256) := by
  rw [BitVec.ofNat_add, BitVec.ofNat_toNat, BitVec.setWidth_eq, counterAdd]

/-- Settles O28: a multiple of 256 below 2^64 is at most 2^64 − 256. -/
theorem counterWrapSetsLovf : Obligations.CounterWrapSetsLovf := by
  intro raw s
  have hl := s.l.isLt
  rw [absorbBlock_l, counterAdd_eq_ofNat, absorbBlock_lovf]
  refine ⟨BitVec.toNat_ofNat _ _, by simp [overflowAfter], fun aligned => ?_⟩
  have wrap : 2 ^ 64 ≤ s.l.toNat + 256 ↔ s.l.toNat = 2 ^ 64 - 256 := by omega
  refine ⟨wrap, fun passes => ?_⟩
  rw [wrap.1 passes]
  rfl

/-! ### The blocks of a SUM -/

theorem toList_reverse_beBytes (n v : Nat) :
    (beBytes n v).toList.reverse = List.ofFn fun i : Fin n => BitVec.ofNat 8 (v / 256 ^ i.val) := by
  apply List.ext_getElem
  · simp
  · intro i hi _
    have hi : i < n := by simpa using hi
    simp [getElem_beBytes, show n - 1 - (n - 1 - i) = i by omega]

/-- The base-256 digits of v, least significant first, are v (R9). -/
theorem leInt_digits (n v : Nat) :
    leInt (List.ofFn fun i : Fin n => BitVec.ofNat 8 (v / 256 ^ i.val)) = v % 256 ^ n := by
  induction n generalizing v with
  | zero => simp [Nat.mod_one]
  | succ n ih =>
    have shift : (List.ofFn fun i : Fin n => BitVec.ofNat 8 (v / 256 ^ i.succ.val)) =
        List.ofFn fun i : Fin n => BitVec.ofNat 8 (v / 256 / 256 ^ i.val) := by
      simp only [Fin.val_succ, Nat.pow_succ', Nat.div_div_eq_div_mul]
    rw [List.ofFn_succ, leInt_cons, shift, ih, Nat.pow_succ', Nat.mod_mul]
    simp

/-- `be_int` undoes `be_bytes` (R9). -/
theorem beInt_beBytes {n v : Nat} (h : v < 256 ^ n) : beInt (beBytes n v).toList = v := by
  rw [beInt_eq_leInt_reverse, toList_reverse_beBytes, leInt_digits, Nat.mod_eq_of_lt h]

/-- The padded tail, reversed, has the integer of the tail's bytes (R166). -/
theorem beInt_reverseBlock_padBlock_le {bs : List Byte} (h : bs.length ≤ 32) :
    beInt (reverseBlock (padBlock bs)).toList = leInt bs := by
  rw [reverseSwapsIntegerViews, leInt_padBlock h]

/-- A block of message bytes goes into Σ as their little-endian integer, modulo 2^256 (R51, R162). -/
theorem checksumAdd_padBlock (sigma : BitVec 256) {bs : List Byte} (h : bs.length ≤ 32) :
    checksumAdd sigma (reverseBlock (padBlock bs)) =
      BitVec.ofNat 256 (sigma.toNat + leInt bs) := by
  rw [checksumAdd, beInt_reverseBlock_padBlock_le h, BitVec.ofNat_add, BitVec.ofNat_toNat,
    BitVec.setWidth_eq]

/-- The reversed tail has its padding in front (R166). -/
theorem getElem_reverseBlock_padBlock_zero {bs : List Byte} {i : Nat} (hi : i < 32)
    (h : i < 32 - bs.length) : (reverseBlock (padBlock bs))[i] = 0#8 := by
  rw [getElem_reverseBlock, getElem_padBlock, List.getD_eq_default _ _ (by omega)]

theorem getElem_lengthBlock_zero (l : BitVec 64) {i : Nat} (hi : i < 24) :
    (lengthBlock l)[i] = 0#8 := by
  have small : l.toNat < 256 ^ (32 - 1 - i) :=
    calc l.toNat < 2 ^ 64 := l.isLt
      _ = 256 ^ 8 := by norm_num
      _ ≤ 256 ^ (32 - 1 - i) := Nat.pow_le_pow_right (by norm_num) (by omega)
  rw [lengthBlock, getElem_beBytes, Nat.div_eq_of_lt small]

theorem getElem_lengthBlock_length (l : BitVec 64) {i : Nat} (hi : i < 8) :
    (lengthBlock l)[24 + i] = (beBytes 8 l.toNat)[i] := by
  rw [lengthBlock, getElem_beBytes, getElem_beBytes, show 32 - 1 - (24 + i) = 8 - 1 - i by omega]

/-- Settles O26, block by block. -/
theorem finalBlocksLayout : Obligations.FinalBlocksLayout := by
  refine ⟨fun bs short => ⟨fun i hi => getElem_reverseBlock_padBlock_zero (by omega) hi,
      beInt_reverseBlock_padBlock_le short.le⟩,
    fun l => ⟨fun i hi => getElem_lengthBlock_zero l hi,
      fun i hi => getElem_lengthBlock_length l hi, beInt_beBytes ?_⟩,
    fun sigma => beInt_beBytes ?_⟩
  · exact l.isLt.trans (by norm_num)
  · exact sigma.isLt.trans_eq (by norm_num)

/-! ### The shadow copies of a SUM -/

/-- The shadow copies of a SUM after its tail (R166). -/
def afterTail (s : State) : Shadow :=
  shadowTail s.encrypt s.b { h := s.h, l := s.l, sigma := s.sigma, calls := [] }

theorem finalize_eq_afterTail (s : State) : finalize s =
    shadowStep s.encrypt (checksumBlock (afterTail s).sigma)
      (shadowStep s.encrypt (lengthBlock (afterTail s).l) (afterTail s)) := rfl

theorem afterTail_nil {s : State} (empty : s.b = []) :
    afterTail s = { h := s.h, l := s.l, sigma := s.sigma, calls := [] } := by
  rw [afterTail, empty, shadowTail_nil]

theorem afterTail_cons {s : State} (tail : s.b ≠ []) : afterTail s =
    { h := compress s.encrypt s.h (reverseBlock (padBlock s.b))
      l := s.l + BitVec.ofNat 64 (8 * s.b.length)
      sigma := checksumAdd s.sigma (reverseBlock (padBlock s.b))
      calls := [stepCalls s.h (reverseBlock (padBlock s.b))] } := by
  rw [afterTail, shadowTail_cons _ _ _ tail, List.nil_append]

theorem afterTail_h (s : State) : (afterTail s).h =
    if s.b = [] then s.h else compress s.encrypt s.h (reverseBlock (padBlock s.b)) := by
  split
  · next empty => rw [afterTail_nil empty]
  · next tail => rw [afterTail_cons tail]

theorem afterTail_calls (s : State) : (afterTail s).calls =
    if s.b = [] then [] else [stepCalls s.h (reverseBlock (padBlock s.b))] := by
  split
  · next empty => rw [afterTail_nil empty]
  · next tail => rw [afterTail_cons tail]

/-- The tail's bits go into L' without a wrap (R166, R175). -/
theorem toNat_afterTail_l {s : State} (short : s.b.length < 32) (aligned : s.l.toNat % 256 = 0) :
    (afterTail s).l.toNat = s.l.toNat + 8 * s.b.length := by
  by_cases tail : s.b = []
  · rw [afterTail_nil tail, tail, List.length_nil, Nat.mul_zero, Nat.add_zero]
  · have hl := s.l.isLt
    rw [afterTail_cons tail, BitVec.toNat_add, BitVec.toNat_ofNat]
    omega

/-- The tail's integer goes into Σ' modulo 2^256 (R166). -/
theorem toNat_afterTail_sigma {s : State} (short : s.b.length < 32) :
    (afterTail s).sigma.toNat = (s.sigma.toNat + leInt s.b) % 2 ^ 256 := by
  by_cases tail : s.b = []
  · rw [afterTail_nil tail, tail, leInt_nil, Nat.add_zero, Nat.mod_eq_of_lt s.sigma.isLt]
  · rw [afterTail_cons tail, checksumAdd_padBlock _ short.le, BitVec.toNat_ofNat]

/-- Settles O25: only the tail changes L', and it has at most 31 bytes. -/
theorem sumLengthDoesNotWrap : Obligations.SumLengthDoesNotWrap := by
  intro s short aligned
  have hl := s.l.isLt
  have length : (finalize s).l.toNat = s.l.toNat + 8 * s.b.length :=
    toNat_afterTail_l short aligned
  obtain ⟨_, _, _, _, ran⟩ := execSum_frame s
  exact ⟨by omega, by omega, length, by omega, _, ran, rfl⟩

/-- What SUM does, SBOX not moved, field by field (R165, R169, R170). -/
theorem exec_sum_steady {s : State} (steady : s.sboxMoved = false) :
    exec .sum s = .next { s with
      d := reverseBlock (finalize s).h
      dvalid := true
      rspWord := statusWord { s with dvalid := true }
      cphTodo := s.cphTodo ++ (finalize s).calls } := by
  have answer : statusWord { s with dvalid := true } = statusWord { s with
      d := reverseBlock (finalize s).h
      dvalid := true
      cphTodo := s.cphTodo ++ (finalize s).calls } :=
    statusWord_congr _ _ rfl rfl rfl rfl rfl
  rw [answer]
  exact execSum_steady s steady

/-- Settles O22: the two Steps after the tail are those of the length block and the checksum block. -/
theorem sumWritesDigest : Obligations.SumWritesDigest := by
  intro s short aligned steady
  refine ⟨_, _, _, _, _, rfl, rfl, rfl, rfl, rfl, ?_⟩
  rw [exec_sum_steady steady, finalize_eq_afterTail]
  simp only [shadowStep, lengthBlock, checksumBlock, toNat_afterTail_l short aligned,
    toNat_afterTail_sigma short, afterTail_h, afterTail_calls, List.append_assoc,
    List.singleton_append]

/-! ### WRITE and the size queries -/

/-- Settles O19: no byte is appended and DVALID is kept. -/
theorem writeOfNothing : Obligations.WriteOfNothing := by
  intro dw s
  change execWrite 0#3 dw s = _
  rw [execWrite_legal 0#3 dw s (by decide)]
  rfl

/-- Settles O17: bytes that do not fill B go at its end. -/
theorem writeBuffersBytes : Obligations.WriteBuffersBytes := by
  intro nb dw s legal short
  change execWrite nb dw s = _
  rw [execWrite_legal nb dw s legal, appendBytes_short s _ (by rwa [length_dataBytes])]
  rfl

/-- Settles O18: the bytes that fill B are absorbed, their block having their little-endian integer. -/
theorem writeAbsorbsFullBlock : Obligations.WriteAbsorbsFullBlock := by
  intro nb dw s legal short fills
  have four : nb.toNat ≤ 4 := BitVec.le_def.1 legal
  have someBytes : nb ≠ 0#3 := by
    rintro rfl
    exact absurd fills (Nat.not_le.2 short)
  refine ⟨s.b ++ dataBytes nb dw, rfl, ?_⟩
  change execWrite nb dw s = _
  rw [execWrite_legal nb dw s legal, appendBytes_full s _ short (by rwa [length_dataBytes])
    (by rw [length_dataBytes]; omega), if_neg someBytes,
    ← checksumAdd_padBlock _ (List.length_take_le _ _), ← counterAdd_eq_ofNat]
  rfl

/-- A row without operands has one legal word (R87). -/
theorem decode_eq_ok_iff_eq {cw : Word} (dw : Word) {i : Instr} (wf : i.wellFormed = true)
    (data : withData dw i = i) : decode cw dw = .ok i ↔ cw = (encode i).1 := by
  rw [decode_eq_ok_iff_word dw wf data, and_fullMask]

/-- Settles O15: the words are the encodings, and exec of either answers 32. -/
theorem sizeQueriesAnswerThirtyTwo : Obligations.SizeQueriesAnswerThirtyTwo := fun _ dw _ =>
  ⟨decode_eq_ok_iff_eq dw rfl rfl, decode_eq_ok_iff_eq dw rfl rfl, rfl, rfl⟩

/-! ### RESET -/

/-- Nothing but RESET takes LOVF back (R31, R163). -/
theorem appendBytes_lovf {s : State} (bs : List Byte) (set : s.lovf = true) :
    (appendBytes s bs).lovf = true := by
  induction bs generalizing s with
  | nil => exact set
  | cons x xs ih =>
    refine ih ?_
    unfold appendByte
    split
    · simp [overflowAfter, set]
    · exact set

/-- A command that is not RESET keeps a set ERR and a set LOVF (R31, R204). -/
theorem commandEffect_keeps_flags {s t : State} {r : Except Cause Instr}
    (he : CommandEffect s r t) (notReset : r ≠ .ok .reset) :
    (s.err = true → t.err = true) ∧ (s.lovf = true → t.lovf = true) := by
  cases he with
  | illegal c => exact ⟨fun _ => rfl, id⟩
  | read i rw _ => exact ⟨id, id⟩
  | reset => exact absurd rfl notReset
  | write nb dw _ => exact ⟨fun h => (appendBytes_err s _).trans h, appendBytes_lovf _⟩
  | sum =>
    obtain ⟨d, free, e⟩ := writeDigest_frame (finalize s).h s
    rw [e]
    exact ⟨id, id⟩

theorem exec_reset (s : State) :
    exec .reset s = .next { clearEngine s with rspWord := 0x00000000#32 } := by
  rw [← statusWord_clearEngine s]
  rfl

/-- Settles O16: RESET is the one command that clears ERR or LOVF, and it writes constants. -/
theorem resetCommandRestores : Obligations.ResetCommandRestores := by
  refine ⟨fun _ dw => decode_eq_ok_iff_eq dw rfl rfl,
    fun s => ⟨_, exec_reset s, rfl, exec_reset _⟩, fun cw dw s t ran cleared => ?_,
    _, _, rfl, by decide, exec_reset _, rfl⟩
  by_contra notOne
  have notReset : decode cw dw ≠ .ok .reset :=
    fun h => notOne ((decode_eq_ok_iff_eq dw rfl rfl).1 h)
  obtain ⟨t', ran', he⟩ := transact_effect cw dw s
  obtain rfl : t = t' := by simpa [ran] using ran'
  obtain ⟨err, lovf⟩ := commandEffect_keeps_flags he notReset
  rcases cleared with ⟨was, now⟩ | ⟨was, now⟩
  · simp [err was] at now
  · simp [lovf was] at now

/-! ### States with the same hash state -/

/-- Two states that hash alike: H, L, Σ, B, LOVF and SBOX agree (R170, R176). -/
structure SameHash (s t : State) : Prop where
  h : s.h = t.h
  l : s.l = t.l
  sigma : s.sigma = t.sigma
  b : s.b = t.b
  lovf : s.lovf = t.lovf
  sbox : s.sbox = t.sbox

theorem SameHash.refl (s : State) : SameHash s s := by
  constructor <;> rfl

theorem SameHash.symm {s t : State} (e : SameHash s t) : SameHash t s :=
  ⟨e.h.symm, e.l.symm, e.sigma.symm, e.b.symm, e.lovf.symm, e.sbox.symm⟩

theorem SameHash.trans {s t u : State} (st : SameHash s t) (tu : SameHash t u) : SameHash s u :=
  ⟨st.h.trans tu.h, st.l.trans tu.l, st.sigma.trans tu.sigma, st.b.trans tu.b,
    st.lovf.trans tu.lovf, st.sbox.trans tu.sbox⟩

theorem appendBytes_sbox (s : State) (bs : List Byte) : (appendBytes s bs).sbox = s.sbox := by
  obtain ⟨_, _, _, _, _, _, e⟩ := appendBytes_frame s bs
  rw [e]

theorem appendBytes_sameHash {s t : State} (e : SameHash s t) (bs : List Byte) :
    SameHash (appendBytes s bs) (appendBytes t bs) := by
  obtain ⟨h, l, sigma, b, lovf⟩ := appendBytes_congr t s bs e.h e.l e.sigma e.b e.lovf e.sbox
  exact ⟨h, l, sigma, b, lovf, by rw [appendBytes_sbox, appendBytes_sbox, e.sbox]⟩

/-- A WRITE leaves the hash state of its bytes appended (R164). -/
theorem exec_write_sameHash {nb : BitVec 3} (legal : nb ≤ 4#3) (dw : Word) (s : State) :
    ∃ t, exec (.write nb dw) s = .next t ∧ SameHash t (appendBytes s (dataBytes nb dw)) :=
  ⟨_, execWrite_legal nb dw s legal, { SameHash.refl (appendBytes s (dataBytes nb dw)) with }⟩

/-- SBOX not moved, the digest a SUM writes depends on the hash state alone (R170, R176). -/
theorem exec_sum_digest_congr {s t : State} (e : SameHash s t) (hs : s.sboxMoved = false)
    (ht : t.sboxMoved = false) :
    ∃ u v, exec .sum s = .next u ∧ exec .sum t = .next v ∧ u.d = v.d := by
  refine ⟨_, _, execSum_steady s hs, execSum_steady t ht, ?_⟩
  simp only [respondStatus_d, finalize_congr t s e.h e.l e.sigma e.b e.sbox]

/-! ### SUM and the hash state -/

/-- Commands that are no RESET and write no byte leave the hash state (R22 to R25, R31). -/
theorem commandEffect_sameHash {s t : State} {r : Except Cause Instr} (he : CommandEffect s r t)
    (notReset : r ≠ .ok .reset) (noByte : ∀ nb d, r = .ok (.write nb d) → nb = 0#3) :
    SameHash t s := by
  cases he with
  | illegal c => exact { SameHash.refl s with }
  | read i rw _ => exact { SameHash.refl s with }
  | reset => exact absurd rfl notReset
  | write nb dw _ =>
    obtain rfl := noByte nb dw rfl
    exact { SameHash.refl s with }
  | sum =>
    obtain ⟨d, free, e⟩ := writeDigest_frame (finalize s).h s
    rw [e]
    exact { SameHash.refl s with }

theorem runCommands_sameHash {cs : List (Word × Word)} {s t : State}
    (quiet : ∀ c ∈ cs, isReset c = false ∧ ∀ nb d, decode c.1 c.2 = .ok (.write nb d) → nb = 0#3)
    (run : runCommands cs s = .next t) : SameHash t s := by
  induction cs generalizing s with
  | nil =>
    cases run
    exact SameHash.refl _
  | cons c cs ih =>
    obtain ⟨⟨notReset, noByte⟩, later⟩ := List.forall_mem_cons.1 quiet
    obtain ⟨u, hu, he⟩ := transact_effect c.1 c.2 s
    rw [runCommands_cons cs hu] at run
    exact (ih later run).trans
      (commandEffect_sameHash he (of_decide_eq_false notReset) noByte)

/-- SUM leaves the hash state, the error flag and its cause (R170). -/
theorem exec_sum_keeps (s : State) : ∃ t, exec .sum s = .next t ∧ SameHash t s ∧
    t.err = s.err ∧ t.ecode = s.ecode ∧ t.sboxMoved = s.sboxMoved := by
  obtain ⟨_, _, _, _, ran⟩ := execSum_frame s
  exact ⟨_, ran, { SameHash.refl s with }, rfl, rfl, rfl⟩

/-- Settles O24: SUM leaves the hash state, as do the commands after it, and what SUM and WRITE do depends on
nothing else. -/
theorem sumDoesNotChangeHashState : Obligations.SumDoesNotChangeHashState := by
  intro s steady
  obtain ⟨t, ht, et, err, ecode, moved⟩ := exec_sum_keeps s
  refine ⟨t, ht, et.h, et.l, et.sigma, et.b, et.lovf, err, ecode,
    fun cs u quiet run => ?_, fun nb dw legal => ?_⟩
  · have eu := (runCommands_sameHash quiet run).trans et
    obtain ⟨v, t', hv, ht', digest⟩ :=
      exec_sum_digest_congr eu (runCommands_sboxMoved run (moved.trans steady)) steady
    obtain rfl : t = t' := Host.Outcome.next.inj (ht.symm.trans ht')
    exact ⟨v, hv, digest⟩
  · obtain ⟨u, hu, eu⟩ := exec_write_sameHash legal dw t
    obtain ⟨v, hv, ev⟩ := exec_write_sameHash legal dw s
    have e := (eu.trans (appendBytes_sameHash et _)).trans ev.symm
    exact ⟨u, v, hu, hv, e.h, e.l, e.sigma, e.b, e.lovf⟩

/-! ### The WRITEs of a message in any split -/

/-- The WRITEs of a split, each of a number of bytes and a data word. -/
def splitWrites (ws : List (BitVec 3 × Word)) : List (Word × Word) :=
  ws.map fun w => encode (.write w.1 w.2)

/-- The bytes that the WRITEs of a split carry, in order (R85). -/
def splitBytes (ws : List (BitVec 3 × Word)) : List Byte :=
  ws.flatMap fun w => dataBytes w.1 w.2

theorem write_wellFormed {nb : BitVec 3} (legal : nb ≤ 4#3) (dw : Word) :
    (Instr.write nb dw).wellFormed = true := by
  simpa [Instr.wellFormed] using legal

/-- The WRITEs of a split leave the hash state of their bytes appended in order (R164, R176). -/
theorem runCommands_splitWrites {ws : List (BitVec 3 × Word)} (legal : ∀ w ∈ ws, w.1 ≤ 4#3)
    (s : State) : ∃ t, runCommands (splitWrites ws) s = .next t ∧
      SameHash t (appendBytes s (splitBytes ws)) := by
  induction ws generalizing s with
  | nil => exact ⟨s, rfl, SameHash.refl s⟩
  | cons w ws ih =>
    obtain ⟨first, later⟩ := List.forall_mem_cons.1 legal
    obtain ⟨u, hu, eu⟩ := exec_write_sameHash first w.2 s
    obtain ⟨t, ht, et⟩ := ih later u
    refine ⟨t, ?_, ?_⟩
    · exact (runCommands_cons (splitWrites ws)
        ((transact_encode (write_wellFormed first w.2) s).trans hu)).trans ht
    · have bytes : splitBytes (w :: ws) = dataBytes w.1 w.2 ++ splitBytes ws := List.flatMap_cons
      rw [bytes, appendBytes_append]
      exact et.trans (appendBytes_sameHash eu _)

/-- Settles O43: either split leaves the hash state of the same bytes appended. -/
theorem splitOfMessageCannotBeSeen : Obligations.SplitOfMessageCannotBeSeen := by
  intro s ws ws' legal legal' same
  obtain ⟨t, ht, et⟩ := runCommands_splitWrites legal s
  obtain ⟨t', ht', et'⟩ := runCommands_splitWrites legal' s
  replace same : splitBytes ws = splitBytes ws' := same
  rw [← same] at et'
  have e := et.trans et'.symm
  exact ⟨t, t', ht, ht', e.h, e.l, e.sigma, e.b, e.lovf, fun steady =>
    exec_sum_digest_congr e (runCommands_sboxMoved ht steady) (runCommands_sboxMoved ht' steady)⟩

/-- The message that the WRITEs of a split write is their bytes in order (R177). -/
theorem foldl_messageAfter_splitWrites {ws : List (BitVec 3 × Word)}
    (legal : ∀ w ∈ ws, w.1 ≤ 4#3) (m : List Byte) :
    (splitWrites ws).foldl messageAfter m = m ++ splitBytes ws := by
  induction ws generalizing m with
  | nil => exact (List.append_nil m).symm
  | cons w ws ih =>
    obtain ⟨first, later⟩ := List.forall_mem_cons.1 legal
    have step : messageAfter m (encode (.write w.1 w.2)) = m ++ dataBytes w.1 w.2 := by
      simp only [messageAfter, decodeEncodeRoundTrip _ (write_wellFormed first w.2)]
    calc (splitWrites (w :: ws)).foldl messageAfter m
        = (splitWrites ws).foldl messageAfter (m ++ dataBytes w.1 w.2) :=
          congrArg (List.foldl messageAfter · (splitWrites ws)) step
      _ = m ++ splitBytes (w :: ws) := by
          rw [ih later, List.append_assoc]
          rfl

/-- Settles O45: RESET, any commands and SUM leave the digest of the message they write, here the bytes of the
split. -/
theorem sumOfMessageIsGost : Obligations.SumOfMessageIsGost := by
  intro s ws legal
  have message : messageOf (splitWrites ws) = splitBytes ws :=
    foldl_messageAfter_splitWrites legal []
  obtain ⟨t, run, digest, valid⟩ := runCommands_reset_sum (splitWrites ws) s
  rw [message] at digest
  exact ⟨t, run, digest, valid⟩

end Sys2Proof.Machine
end

/-! PROOF. The host control commands NOP and STATUS (45_host_control.md R180, R181): the STATUS word bit by bit,
as the layout of R32 places its fields, and each field read back from its place. -/

namespace Sys2Proof.Machine

/-! ### The layout of the STATUS word -/

/-- Bit i of the STATUS word, as the layout of R32 lists them; the bits it reserves are 0. -/
def statusBit (s : State) (i : Nat) : Bool :=
  if i = 0 then s.dvalid
  else if i = 1 then s.err
  else if i = 2 then s.lovf
  else if 4 ≤ i ∧ i < 9 then (blen s).getLsbD (i - 4)
  else if 12 ≤ i ∧ i < 14 then s.ecode.getLsbD (i - 12)
  else false

theorem getLsbD_flagWord (f : Bool) (i : Nat) :
    (flagWord f).getLsbD i = (decide (i = 0) && f) := by
  cases f <;> simp [flagWord]

theorem getLsbD_statusWord (s : State) {i : Nat} (hi : i < 32) :
    (statusWord s).getLsbD i = statusBit s i := by
  simp only [statusWord, BitVec.getLsbD_or, BitVec.getLsbD_shiftLeft, BitVec.getLsbD_setWidth,
    getLsbD_flagWord, hi]
  grind [statusBit]

/-- A field is read back from its place when the layout lists its bits there. -/
theorem extractLsb'_statusWord {s : State} {start w : Nat} {field : BitVec w}
    (room : start + w ≤ 32) (bits : ∀ i < w, statusBit s (start + i) = field.getLsbD i) :
    (statusWord s).extractLsb' start w = field := by
  refine BitVec.eq_of_getLsbD_eq fun i hi => ?_
  rw [BitVec.getLsbD_extractLsb', getLsbD_statusWord s (by omega), bits i hi]
  simp [hi]

theorem extractLsb'_statusWord_blen (s : State) : (statusWord s).extractLsb' 4 5 = blen s :=
  extractLsb'_statusWord (by decide) fun i hi => by grind [statusBit]

theorem extractLsb'_statusWord_ecode (s : State) : (statusWord s).extractLsb' 12 2 = s.ecode :=
  extractLsb'_statusWord (by decide) fun i hi => by grind [statusBit]

/-- The reserved bits above BLEN and above ECODE read 0 (R181). -/
theorem extractLsb'_statusWord_reserved (s : State) :
    (statusWord s).extractLsb' 9 3 = 0#3 ∧ (statusWord s).extractLsb' 14 18 = 0#18 :=
  ⟨extractLsb'_statusWord (by decide) fun i hi => by grind [statusBit],
    extractLsb'_statusWord (by decide) fun i hi => by grind [statusBit]⟩

/-- BLEN is the count of pending bytes while B is not full (R25). -/
theorem toNat_blen {s : State} (short : s.b.length < 32) : (blen s).toNat = s.b.length := by
  rw [blen, BitVec.toNat_ofNat, Nat.mod_eq_of_lt short]

/-! ### NOP and STATUS -/

theorem exec_status (s : State) : exec .status s = .next { s with rspWord := statusWord s } := rfl

theorem exec_nop (s : State) : exec .nop s = exec .status s := rfl

/-- Settles O12: NOP is STATUS under the zero word. -/
theorem nopAnswersStatusOnly : Obligations.NopAnswersStatusOnly :=
  ⟨fun _ dw => decode_eq_ok_iff_eq dw rfl rfl,
    fun s => ⟨(exec_nop s).trans (exec_status s), exec_nop s⟩,
    _, (exec_nop State.reset).trans (exec_status State.reset), statusWord_clearEngine State.reset⟩

/-- From reset, RESET and a WRITE of three bytes leave them in B and 3 in the response (R164, R171). -/
theorem runCommands_reset_write :
    runCommands [(0x00000001#32, 0#32), (0x00000032#32, 0x00636261#32)] State.reset =
      .next { State.reset with b := [0x61#8, 0x62#8, 0x63#8], rspWord := 3#32 } := rfl

/-- Settles O13: the fields are read back from the layout, and the examples leave three bytes in B, before and
after the SUM that sets DVALID. -/
theorem statusReportsFields : Obligations.StatusReportsFields := by
  refine ⟨fun _ dw => decode_eq_ok_iff_eq dw rfl rfl, fun s short => ?_, ?_, ?_⟩
  · have blenValue : ((statusWord s).extractLsb' 4 5).toNat = s.b.length := by
      rw [extractLsb'_statusWord_blen, toNat_blen short]
    obtain ⟨aboveBlen, aboveEcode⟩ := extractLsb'_statusWord_reserved s
    exact ⟨statusWord s, exec_status s, statusWord_getLsbD_zero s, statusWord_getLsbD_one s,
      getLsbD_statusWord s (by decide), getLsbD_statusWord s (by decide), blenValue, aboveBlen,
      extractLsb'_statusWord_ecode s, aboveEcode⟩
  · exact ⟨_, runCommands_append [encode .status] runCommands_reset_write, by decide⟩
  · exact ⟨_, (runCommands_append [encode .sum, encode .status] runCommands_reset_write).trans
      (runCommands_cons _ (exec_sum_steady rfl)), by decide⟩

end Sys2Proof.Machine

/-! PROOF. The exceptions (60_exceptions.md R200 to R204) and the idle engine (R215): the cause each fault of a
word gives, ERR and ECODE after any command, and the edges between commands. -/

namespace Sys2Proof.Machine

/-! ### The cause of an illegal word -/

theorem toNat_and_opMask (cw : Word) : (cw &&& 0x0000000F#32).toNat = (opField cw).toNat := by
  rw [and_opMask]
  exact BitVec.toNat_setWidth_of_le (by decide)

/-- The reserved opcodes are 8..F (R81). -/
theorem assigned_eq_none_iff (cw dw : Word) : assigned cw dw = none ↔ 8 ≤ (opField cw).toNat := by
  unfold assigned
  split
  case h_9 => grind
  all_goals simp [*]

theorem decode_eq_badOp_iff (cw dw : Word) :
    decode cw dw = .error .badOp ↔ 8 ≤ (opField cw).toNat := by
  rw [← assigned_eq_none_iff cw dw, decode]
  cases assigned cw dw with
  | none => simp
  | some i =>
    dsimp only
    split_ifs <;> simp

theorem decode_eq_badRsvd_iff (cw dw : Word) : decode cw dw = .error .badRsvd ↔
    (opField cw).toNat < 8 ∧ cw &&& reservedMask (opField cw) ≠ 0#32 := by
  rw [← Nat.not_le, ← assigned_eq_none_iff cw dw, decode]
  cases assigned cw dw with
  | none => simp
  | some i =>
    dsimp only
    by_cases rsvd : cw &&& reservedMask (opField cw) ≠ 0#32
    · simp [rsvd]
    · rw [if_neg rsvd]
      split_ifs <;> simp [rsvd]

theorem decode_eq_badNb_iff (cw dw : Word) : decode cw dw = .error .badNb ↔
    opField cw = 2#4 ∧ cw &&& reservedMask 2#4 = 0#32 ∧ 4#3 < nbField cw := by
  constructor
  · intro h
    unfold decode at h
    split at h
    · cases h
    · split_ifs at h with rsvd nb
      · cases h
      · obtain ⟨op, big⟩ := nb
        exact ⟨op, by simpa [op] using rsvd, big⟩
  · rintro ⟨op, rsvd, big⟩
    simp [decode, assigned, op, rsvd, big]

/-- Settles O5: each check of R88 gives its cause exactly when those before it pass. -/
theorem firstFaultDecidesCause : Obligations.FirstFaultDecidesCause := by
  refine ⟨fun cw dw => ?_, fun dw => ⟨(decode_eq_badOp_iff _ dw).2 (by decide),
    (decode_eq_badRsvd_iff _ dw).2 (by decide), (decode_eq_badNb_iff _ dw).2 (by decide)⟩⟩
  rw [toNat_and_opMask]
  exact ⟨(decode_eq_badOp_iff cw dw).2,
    fun op rsvd => (decode_eq_badRsvd_iff cw dw).2 ⟨op, rsvd⟩,
    fun op rsvd big => (decode_eq_badNb_iff cw dw).2 ⟨op, rsvd, big⟩⟩

/-! ### Taking the exception -/

/-- Settles O10, from the effect of every transaction. -/
theorem everyCommandCompletes : Obligations.EveryCommandCompletes := fun cw dw s =>
  (transact_effect cw dw s).imp fun _ ⟨ran, _⟩ => ran

/-- Settles O29: the response is the STATUS word of the state with the cause and ERR in it. -/
theorem illegalCommandEffect : Obligations.IllegalCommandEffect := by
  intro cw dw s c illegal
  have ran : transact cw dw s = .next (raiseIllegal c s) := by simp only [transact, illegal]
  exact ⟨_, ran, rfl, statusWord_getLsbD_one _, extractLsb'_statusWord_ecode _⟩

/-! ### ECODE -/

/-- ECODE after words that decode to this: RESET clears it, and an illegal word records its cause unless an
earlier one stands (R171, R201). -/
def ecodeAfter (s : State) : Except Cause Instr → BitVec 2
  | .ok .reset => 0#2
  | .ok _ => s.ecode
  | .error c => if s.err then s.ecode else causeCode c

theorem commandEffect_ecode {s t : State} {r : Except Cause Instr} (he : CommandEffect s r t) :
    t.ecode = ecodeAfter s r := by
  cases he with
  | illegal c => rfl
  | read i rw hi => cases i <;> simp [isRead] at hi <;> rfl
  | reset => rfl
  | write nb dw _ => exact appendBytes_ecode s _
  | sum =>
    obtain ⟨d, free, e⟩ := writeDigest_frame (finalize s).h s
    rw [e]
    rfl

/-- A first cause stands over anything but RESET (R204). -/
theorem ecodeAfter_of_err {s : State} {r : Except Cause Instr} (err : s.err = true)
    (notReset : r ≠ .ok .reset) : ecodeAfter s r = s.ecode := by
  cases r with
  | error c => exact if_pos err
  | ok i =>
    cases i with
    | reset => exact absurd rfl notReset
    | _ => rfl

theorem ecodeAfter_reset_ok (i : Instr) : ecodeAfter State.reset (.ok i) = 0#2 := by
  cases i <;> rfl

theorem causeCode_injective : Function.Injective causeCode := by
  intro c c' same
  cases c <;> cases c' <;> trivial

theorem ecodeAfter_reset_eq_causeCode_iff (r : Except Cause Instr) (c : Cause) :
    ecodeAfter State.reset r = causeCode c ↔ r = .error c := by
  cases r with
  | ok i => simp [ecodeAfter_reset_ok, (causeCode_ne_zero c).symm]
  | error c' => simpa [ecodeAfter, State.reset] using causeCode_injective.eq_iff

theorem ecodeAfter_reset_eq_zero_iff (r : Except Cause Instr) :
    ecodeAfter State.reset r = 0#2 ↔ ∃ i, r = .ok i := by
  cases r with
  | ok i => simp [ecodeAfter_reset_ok]
  | error c => simp [ecodeAfter, State.reset, causeCode_ne_zero]

/-- The words that match WRITE's row are those of its opcode without a reserved bit (R84, R87). -/
theorem and_writeMask_eq_iff (cw : Word) : cw &&& 0xFFFFFF8F#32 = 0x00000002#32 ↔
    opField cw = 2#4 ∧ cw &&& reservedMask 2#4 = 0#32 := by
  constructor
  · intro row
    have word : cw = (encode (.write (nbField cw) 0#32)).1 := by
      conv_lhs => rw [eq_or_of_masks cw 0xFFFFFF8F#32 0x00000070#32 rfl, row, and_nbMask]
      rfl
    obtain ⟨op, -, rsvd⟩ := encode_write_fields (nbField cw) 0#32
    exact ⟨word ▸ op, word ▸ rsvd⟩
  · rintro ⟨op, rsvd⟩
    have noOther : cw &&& 0xFFFFFF80#32 = 0#32 := rsvd
    calc cw &&& 0xFFFFFF8F#32
        = cw &&& 0x0000000F#32 ||| cw &&& 0xFFFFFF80#32 := by
          rw [← BitVec.and_or_distrib_left]
          rfl
      _ = 0x00000002#32 := by
          rw [and_opMask, op, noOther]
          rfl

/-- Settles O6: from reset ECODE is the code of the cause, and the causes have codes of their own. -/
theorem causeCodesRecorded : Obligations.CauseCodesRecorded := by
  intro cw dw
  obtain ⟨t, ran, he⟩ := transact_effect cw dw State.reset
  refine ⟨t, ran, ?_⟩
  have badNb : decode cw dw = .error .badNb ↔
      cw &&& 0xFFFFFF8F#32 = 0x00000002#32 ∧ 5 ≤ (nbField cw).toNat := by
    rw [decode_eq_badNb_iff, and_writeMask_eq_iff, and_assoc]
    rfl
  rw [commandEffect_ecode he, toNat_and_opMask]
  exact ⟨(ecodeAfter_reset_eq_causeCode_iff _ .badOp).trans (decode_eq_badOp_iff cw dw),
    (ecodeAfter_reset_eq_causeCode_iff _ .badRsvd).trans (decode_eq_badRsvd_iff cw dw),
    (ecodeAfter_reset_eq_causeCode_iff _ .badNb).trans badNb, ecodeAfter_reset_eq_zero_iff _⟩

/-- Settles O30, by induction on the commands: none of them is RESET, so each keeps ERR and ECODE. -/
theorem errorIsSticky : Obligations.ErrorIsSticky := by
  intro cs
  induction cs with
  | nil => exact fun s err _ => ⟨s, rfl, err, rfl⟩
  | cons c cs ih =>
    intro s err noReset
    obtain ⟨first, later⟩ := List.forall_mem_cons.1 noReset
    have notReset : decode c.1 c.2 ≠ .ok .reset := of_decide_eq_false first
    obtain ⟨u, hu, he⟩ := transact_effect c.1 c.2 s
    obtain ⟨keepsErr, -⟩ := commandEffect_keeps_flags he notReset
    obtain ⟨t, ht, terr, tecode⟩ := ih u (keepsErr err) later
    refine ⟨t, (runCommands_cons cs hu).trans ht, terr, ?_⟩
    rw [tecode, commandEffect_ecode he, ecodeAfter_of_err err notReset]

/-! ### The edges between commands -/

/-- What the pins listed for the next edges and the pins at rest have in common, the next pins have. -/
theorem nextPins_of_forall_take {P : Pins → Prop} {n : Nat} {s : State} (atRest : P {})
    (listed : ∀ p ∈ s.inputs.take (n + 1), P p) : P (nextPins s) := by
  unfold nextPins
  cases inputs : s.inputs with
  | nil => exact atRest
  | cons p rest => exact listed p (by simp [inputs])

/-- An idle edge with nothing offered, rst low and SBOX steady takes its pins off the list (R215). -/
theorem step_idle {s : State} (idle : s.phase = .idle) (held : s.held = none)
    (quiet : (nextPins s).rst = false ∧ (nextPins s).cmdValid = false ∧ (nextPins s).sbox = none) :
    step s = .next { s with inputs := s.inputs.tail } := by
  obtain ⟨rst, noOffer, sbox⟩ := quiet
  have edge : step s = runEdge (nextPins s) { s with inputs := s.inputs.tail } :=
    (clockEdge_run _ _ (by simp [held]) rst).trans (by rw [driveSbox_steady _ _ sbox])
  simp [edge, runEdge, idle, noOffer, ← held]

/-- Settles O58, by induction on the edges. -/
theorem idleEngineKeepsItsState : Obligations.IdleEngineKeepsItsState := by
  intro n
  induction n with
  | zero => exact fun s _ _ _ => rfl
  | succ n ih =>
    intro s idle held quiet
    have edge := step_idle idle held (nextPins_of_forall_take (by decide) quiet)
    have later : s.inputs.tail.take n = (s.inputs.take (n + 1)).tail := by
      rw [List.tail_take_eq_take_tail, Nat.add_sub_cancel]
    have rest := ih { s with inputs := s.inputs.tail } idle held fun p hp =>
      quiet p (List.mem_of_mem_tail (later ▸ hp))
    simpa only [runEdges, edge, List.drop_tail] using rest

end Sys2Proof.Machine

/-! PROOF. Reset and hazards (70_reset_and_hazards.md R230 to R243): the cipher work of every command, hardware
reset, the command hold, the waiting response, the edges in which a served command completes, what a move of SBOX
frees, and what clean flags say of the digest. -/

namespace Sys2Proof.Machine

/-! ### The cipher work of a command -/

@[simp] theorem length_stepCalls (h m : Block) : (stepCalls h m).length = 4 := by
  simp [stepCalls]

/-- The Steps of a SUM in order: the tail's, if there is a tail, the length block's and the checksum block's
(R166 to R168). -/
theorem finalize_calls (s : State) : (finalize s).calls =
    (if s.b = [] then [] else [stepCalls s.h (reverseBlock (padBlock s.b))]) ++
      [stepCalls (afterTail s).h (lengthBlock (afterTail s).l),
        stepCalls (compress s.encrypt (afterTail s).h (lengthBlock (afterTail s).l))
          (checksumBlock (afterTail s).sigma)] := by
  rw [finalize_eq_afterTail, ← afterTail_calls]
  simp only [shadowStep, List.append_assoc, List.singleton_append]

/-- Each Step of a SUM makes four calls (R144). -/
theorem length_of_mem_finalize_calls (s : State) : ∀ g ∈ (finalize s).calls, g.length = 4 := by
  rw [finalize_calls]
  split <;> simp

theorem length_finalize_calls (s : State) :
    (finalize s).calls.length = if s.b = [] then 2 else 3 := by
  rw [finalize_calls]
  split <;> rfl

/-- Settles O60: a WRITE absorbs a block or none, and a SUM makes the Steps of its shadow copies. -/
theorem cipherWorkOfEachCommand : Obligations.CipherWorkOfEachCommand := by
  intro i s wf short
  cases i with
  | write nb dw =>
    have legal : nb ≤ 4#3 := by simpa [Instr.wellFormed] using wf
    by_cases room : s.b.length + nb.toNat < 32
    · exact ⟨_, [], writeBuffersBytes nb dw s legal room, (List.append_nil _).symm, by simp,
        (if_pos room).symm, (if_pos room).symm⟩
    · obtain ⟨_, rfl, ran⟩ := writeAbsorbsFullBlock nb dw s legal short (Nat.le_of_not_lt room)
      exact ⟨_, _, ran, rfl, by simp, (if_neg room).symm, (if_neg room).symm⟩
  | sum =>
    exact ⟨_, (finalize s).calls, rfl, rfl, length_of_mem_finalize_calls s, rfl,
      length_finalize_calls s⟩
  | _ => exact ⟨_, [], rfl, (List.append_nil _).symm, by simp, rfl, rfl⟩

/-! ### Hardware reset and the command hold -/

/-- A broken hold is refused, whatever rst is (R237, log 13). -/
theorem step_refused {s : State} {p : Pins} {rest : List Pins} (inputs : s.inputs = p :: rest)
    {c : Word × Word} (held : s.held = some c) (broken : offered p ≠ some c) :
    step s = .refused .commandNotHeld := by
  rw [step_cons s p rest inputs]
  exact clockEdge_broken p _ (by simp [holdBroken, held, broken])

/-- With the hold kept, an edge with rst high resets (R230). -/
theorem step_reset {s : State} {p : Pins} {rest : List Pins} (inputs : s.inputs = p :: rest)
    (rst : p.rst = true) (hold : ∀ c, s.held = some c → offered p = some c) :
    step s = .next (hardwareReset p { s with inputs := rest }) := by
  rw [step_cons s p rest inputs]
  exact clockEdge_reset p _ hold rst

/-- Settles O49: hardware reset and RESET write the same constants, and every output is masked by rst. -/
theorem hardwareResetAbandonsEverything : Obligations.HardwareResetAbandonsEverything := by
  intro s p rest inputs rst
  refine ⟨fun hold => ⟨_, step_reset inputs rst hold, rfl, rfl, rfl, rfl, rfl, rfl, rfl, rfl, rfl,
    rfl, rfl, rfl, rfl, _, exec_reset s, rfl, rfl, rfl, rfl, rfl, rfl, rfl, rfl, rfl⟩,
    fun c held broken => step_refused inputs held broken, ?_, ?_, ?_⟩
  · simp [cmdReady, rst]
  · simp [rspOffered, rst]
  · simp [cphOffered, rst]

/-- Sampling SBOX does not see the pins to come. -/
theorem driveSbox_inputs (p : Pins) (s : State) (rest : List Pins) :
    driveSbox p { s with inputs := rest } = { driveSbox p s with inputs := rest } := by
  have sum : sumInFlight { s with inputs := rest } = sumInFlight s := rfl
  unfold driveSbox
  rw [sum]
  cases p.sbox with
  | none => rfl
  | some x =>
    dsimp only
    split_ifs <;> rfl

/-- An edge that takes no command and is no reset samples SBOX, and otherwise moves only the handshake and the
cipher port (R57, R60). -/
theorem step_noTransfer {s t : State} {p : Pins} {rest : List Pins} (inputs : s.inputs = p :: rest)
    (rst : p.rst = false) (noTransfer : s.phase ≠ .idle ∨ p.cmdValid = false)
    (h : step s = .next t) :
    ∃ phase todo req held, t = { driveSbox p s with
      inputs := rest, phase := phase, cphTodo := todo, cphReq := req, held := held } ∧
      (s.phase ≠ .idle → held = offered p) := by
  rw [step_cons s p rest inputs] at h
  obtain ⟨-, hc⟩ := clockEdge_next p _ t h
  rw [driveSbox_phase, driveSbox_inputs] at hc
  rcases hc with ⟨high, -⟩ | ⟨-, ⟨idle, -, rfl⟩ | ⟨idle, offer, -⟩ | ⟨cw, n, -, hb⟩ | ⟨-, -, rfl⟩ |
    ⟨-, -, rfl⟩⟩
  · simp [rst] at high
  · exact ⟨_, _, _, _, rfl, fun inFlight => absurd idle inFlight⟩
  · replace idle : s.phase = .idle := idle
    simp [idle, offer] at noTransfer
  · obtain ⟨phase, todo, req, rfl⟩ := busyEdge_port hb
    exact ⟨phase, todo, req, _, rfl, fun _ => rfl⟩
  · exact ⟨_, _, _, _, rfl, fun _ => rfl⟩
  · exact ⟨_, _, _, _, rfl, fun _ => rfl⟩

/-- Settles O57: the hold is checked before anything else, and an edge that takes no command records its offer. -/
theorem commandNotHeldIsRefused : Obligations.CommandNotHeldIsRefused := by
  intro s p rest inputs
  refine ⟨fun c held broken => step_refused inputs held broken, fun t ran waits => ?_⟩
  cases rst : p.rst with
  | true =>
    rw [step_cons s p rest inputs] at ran
    obtain ⟨-, ⟨-, rfl⟩ | ⟨low, -⟩⟩ := clockEdge_next p _ t ran
    · rfl
    · simp [rst] at low
  | false =>
    have inFlight : s.phase ≠ .idle := by simpa [rst] using waits
    obtain ⟨_, _, _, held, rfl, record⟩ := step_noTransfer inputs rst (.inl inFlight) ran
    exact record inFlight

/-! ### The waiting response -/

/-- With the hold kept, rst low and SBOX steady, a waiting response is taken or stays (R57, R238). -/
theorem step_responding {s : State} {p : Pins} {rest : List Pins} (inputs : s.inputs = p :: rest)
    (waits : s.phase = .responding) (rst : p.rst = false) (sbox : p.sbox = none)
    (hold : ∀ c, s.held = some c → offered p = some c) :
    step s = .next { s with
      inputs := rest
      phase := if p.rspReady then .idle else .responding
      held := offered p } := by
  rw [step_cons s p rest inputs, clockEdge_run p { s with inputs := rest } hold rst,
    driveSbox_steady p _ sbox]
  cases ready : p.rspReady <;> simp [runEdge, waits, ready]

/-- Settles O56: the edge moves the phase and the record of the offer, by whether the response is taken. -/
theorem responseHeldUntilTaken : Obligations.ResponseHeldUntilTaken := by
  intro s p rest inputs waits rst sbox hold
  exact ⟨_, step_responding inputs waits rst sbox hold, (sameEngine_port s _ _ _ _ _).symm,
    by simp [cmdReady, waits], by simp [rspOffered, waits, rst], fun busy => by simp [busy],
    fun ready => by simp [ready], rfl⟩

/-! ### A served command -/

/-- A bound on the served edges until the response is taken: two for each cipher call left, one of them gone once
the request is up, LAT, and the two of offering and taking the response (log 7, log 10). -/
def servedEdgesLeft (s : State) : Nat :=
  match s.phase with
  | .idle => 0
  | .responding => 1
  | .busy cw elapsed =>
    2 * callsLeft s + (if s.cphReq then 0 else 1) + (Config.lat cw - elapsed) + 1

theorem servedEdgesLeft_busy {s : State} {cw : Word} {elapsed : Nat}
    (busy : s.phase = .busy cw elapsed) : servedEdgesLeft s =
      2 * callsLeft s + (if s.cphReq then 0 else 1) + (Config.lat cw - elapsed) + 1 := by
  simp [servedEdgesLeft, busy]

/-- A willing host keeps its hold (R237). -/
theorem offered_servingPins (s : State) : offered (servingPins s) = s.held := by
  cases held : s.held <;> simp [offered, servingPins, held]

/-- A prompt cipher answers right, whether or not SBOX has moved (R145). -/
theorem answerRight_servingPins {s : State} {c : CphCall} (call : currentCall s = some c) :
    answerRight (servingPins s) c s = true := by
  simp [answerRight, servingPins, answerOwed, call]

/-- With no call left no request is up (R145). -/
theorem Inv.noRequest {s : State} (inv : Inv s) (noCall : s.cphTodo = []) : s.cphReq = false :=
  Bool.eq_false_iff.2 fun req => inv.request req noCall

section
variable {p : Pins} {cw : Word} {n : Nat} {s : State}

theorem busyEdge_offer (noCall : currentCall s = none) (passed : Config.lat cw ≤ n + 1) :
    busyEdge p cw n s = .next { s with phase := .responding } := by
  simp [busyEdge, noCall, passed]

theorem busyEdge_wait (noCall : currentCall s = none) (early : ¬ Config.lat cw ≤ n + 1) :
    busyEdge p cw n s = .next { s with phase := .busy cw (n + 1) } := by
  simp [busyEdge, noCall, early]

end

/-- An answer takes the two edges of its call off the bound, less the one its request has taken (log 10). -/
theorem servedEdgesLeft_answered {s t : State} {cw : Word} {n : Nat} (before : s.phase = .busy cw n)
    (after : t.phase = .busy cw (n + 1)) (req : s.cphReq = true) (dropped : t.cphReq = false)
    (oneLess : callsLeft t + 1 = callsLeft s) : servedEdgesLeft t < servedEdgesLeft s := by
  simp only [servedEdgesLeft_busy before, servedEdgesLeft_busy after, req, dropped, if_true,
    Bool.false_eq_true, if_false]
  omega

/-- With no call left, an edge in flight waits for LAT or offers the response (R242). -/
theorem busyEdge_progress_of_noCall {p : Pins} {s : State} {cw : Word} {n : Nat} (inv : Inv s)
    (busy : s.phase = .busy cw n) (noneLeft : s.cphTodo = []) :
    ∃ t, busyEdge p cw n s = .next t ∧ servedEdgesLeft t < servedEdgesLeft s := by
  have noCall : currentCall s = none := (currentCall_eq_none s inv.calls).2 noneLeft
  have noReq := inv.noRequest noneLeft
  rw [servedEdgesLeft_busy busy, noReq]
  by_cases passed : Config.lat cw ≤ n + 1
  · refine ⟨_, busyEdge_offer noCall passed, ?_⟩
    simp [servedEdgesLeft]
  · refine ⟨_, busyEdge_wait noCall passed, ?_⟩
    simp only [servedEdgesLeft, callsLeft, noReq]
    omega

/-- With a call left and a prompt cipher, an edge in flight raises the request or captures its answer (R145). -/
theorem busyEdge_progress_of_call {p : Pins} {s : State} {cw : Word} {n : Nat} (inv : Inv s)
    (busy : s.phase = .busy cw n) (left : s.cphTodo ≠ []) (prompt : p.cphAck = s.cphReq)
    (right : ∀ c, currentCall s = some c → answerRight p c s = true) :
    ∃ t, busyEdge p cw n s = .next t ∧ servedEdgesLeft t < servedEdgesLeft s := by
  obtain ⟨calls, later, todo⟩ := List.exists_cons_of_ne_nil left
  have calls_ne : calls ≠ [] := fun empty => inv.calls (by simp [todo, empty])
  have call := (currentCall_cons todo).trans (List.getElem?_eq_getElem (pickIndex_lt calls_ne))
  by_cases req : s.cphReq = true
  · exact ⟨_, busyEdge_answer call req (prompt.trans req) (right _ call),
      servedEdgesLeft_answered busy rfl req rfl (callsLeft_of_answered todo calls_ne rfl)⟩
  · rw [Bool.not_eq_true] at req
    refine ⟨_, busyEdge_raise call req, ?_⟩
    rw [servedEdgesLeft_busy busy, req]
    simp only [servedEdgesLeft, callsLeft, if_true, Bool.false_eq_true, if_false]
    omega

/-- A served edge of the command in flight leaves the engine and takes one off the bound (R145, R242). -/
theorem step_served_busy {s : State} {cw : Word} {n : Nat} (inv : Inv s)
    (busy : s.phase = .busy cw n) :
    ∃ t, step { s with inputs := [servingPins s] } = .next t ∧ SameEngine s t ∧
      servedEdgesLeft t < servedEdgesLeft s := by
  have edge : ∃ t, busyEdge (servingPins s) cw n
      { s with inputs := [], held := offered (servingPins s) } = .next t ∧
      servedEdgesLeft t < servedEdgesLeft s := by
    by_cases left : s.cphTodo = []
    · exact busyEdge_progress_of_noCall { inv with } busy left
    · exact busyEdge_progress_of_call { inv with } busy left rfl fun _ => answerRight_servingPins
  obtain ⟨t, ran, fewer⟩ := edge
  have hold : ∀ c, s.held = some c → offered (servingPins s) = some c := fun _ held =>
    (offered_servingPins s).trans held
  refine ⟨t, ?_, ?_, fewer⟩
  · exact (step_busy (s := { s with inputs := [servingPins s] }) rfl busy rfl rfl hold).trans ran
  · obtain ⟨_, _, _, rfl⟩ := busyEdge_port ran
    exact (sameEngine_port s _ _ _ _ _).symm

/-- A served edge takes a waiting response (R238). -/
theorem step_served_responding {s : State} (waits : s.phase = .responding) :
    ∃ t, step { s with inputs := [servingPins s] } = .next t ∧ SameEngine s t ∧
      servedEdgesLeft t < servedEdgesLeft s := by
  refine ⟨_, step_responding (s := { s with inputs := [servingPins s] }) rfl waits rfl rfl
    fun c held => (offered_servingPins s).trans held, (sameEngine_port s _ _ _ _ _).symm, ?_⟩
  simp [servedEdgesLeft, waits, servingPins]

theorem Phase.inFlight_cases {phase : Phase} (inFlight : phase ≠ .idle) :
    (∃ cw n, phase = .busy cw n) ∨ phase = .responding := by
  cases phase with
  | idle => exact absurd rfl inFlight
  | busy cw n => exact .inl ⟨cw, n, rfl⟩
  | responding => exact .inr rfl

/-- A served edge with a command in flight keeps the invariant and the engine and takes one off the bound
(R243). -/
theorem step_served {s : State} (inv : Inv s) (inFlight : s.phase ≠ .idle) :
    ∃ t, step { s with inputs := [servingPins s] } = .next t ∧ Inv t ∧ SameEngine s t ∧
      servedEdgesLeft t < servedEdgesLeft s := by
  have edge : ∃ t, step { s with inputs := [servingPins s] } = .next t ∧ SameEngine s t ∧
      servedEdgesLeft t < servedEdgesLeft s := by
    rcases Phase.inFlight_cases inFlight with ⟨cw, n, busy⟩ | waits
    · exact step_served_busy inv busy
    · exact step_served_responding waits
  obtain ⟨t, ran, kept⟩ := edge
  have start : Inv { s with inputs := [servingPins s] } := { inv with }
  exact ⟨t, ran, stepKeepsInvariant _ t start ran, kept⟩

/-- Served edges end with the response taken, within the bound (R243). -/
theorem servedRun_completes {s : State} (inv : Inv s) : ∃ n t, n ≤ servedEdgesLeft s ∧
    servedRun n s = .next t ∧ t.phase = .idle ∧ SameEngine s t := by
  generalize bound : servedEdgesLeft s = k
  induction k using Nat.strong_induction_on generalizing s with
  | _ k ih =>
    subst bound
    by_cases idle : s.phase = .idle
    · exact ⟨0, s, Nat.zero_le _, rfl, idle, SameEngine.refl s⟩
    · obtain ⟨u, ran, inv', su, fewer⟩ := step_served inv idle
      obtain ⟨n, t, few, run, done, ut⟩ := ih _ fewer inv' rfl
      refine ⟨n + 1, t, by omega, ?_, done, su.trans ut⟩
      simp only [servedRun, ran, run]

/-- Settles O55: the bound in the statement is no smaller. -/
theorem servedCommandCompletes : Obligations.ServedCommandCompletes := by
  intro s cw elapsed inv busy
  obtain ⟨n, t, few, done⟩ := servedRun_completes inv
  refine ⟨n, t, ?_, done⟩
  rw [servedEdgesLeft_busy busy] at few
  split at few <;> omega

/-! ### SBOX moves -/

theorem sumInFlight_iff (s : State) :
    sumInFlight s = true ↔ ∃ n, s.phase = .busy 0x00000003#32 n := by
  unfold sumInFlight
  cases s.phase with
  | busy cw n => simp [decode_eq_ok_iff_eq 0#32 (i := .sum) rfl rfl, encode]
  | _ => simp

theorem driveSbox_sbox (p : Pins) (s : State) : (driveSbox p s).sbox = cphSbox p s := by
  unfold driveSbox cphSbox
  cases p.sbox with
  | none => rfl
  | some x =>
    dsimp only
    split_ifs with same
    · exact same.symm
    · rfl
    · rfl

/-- A new value sets the record (R236, log 14). -/
theorem driveSbox_new {p : Pins} {s : State} {x : Sbox} (sbox : p.sbox = some x)
    (new : x ≠ s.sbox) : driveSbox p s =
      if sumInFlight s then
        { s with sbox := x, sboxMoved := true, d := Config.freeDigest s.free, free := s.free + 1 }
      else { s with sbox := x, sboxMoved := true } := by
  simp only [driveSbox, sbox, if_neg new]

theorem driveSbox_new_sboxMoved {p : Pins} {s : State} {x : Sbox} (sbox : p.sbox = some x)
    (new : x ≠ s.sbox) : (driveSbox p s).sboxMoved = true := by
  rw [driveSbox_new sbox new]
  split <;> rfl

theorem driveSbox_same {p : Pins} {s : State} (same : p.sbox = none ∨ p.sbox = some s.sbox) :
    driveSbox p s = s := by
  rcases same with none | some
  · exact driveSbox_steady p s none
  · simp [driveSbox, some]

/-- SUM after SBOX moved, field by field (R236, log 14). -/
theorem exec_sum_moved {s : State} (moved : s.sboxMoved = true) :
    exec .sum s = .next { s with
      d := Config.freeDigest s.free
      free := s.free + 1
      dvalid := true
      rspWord := statusWord { s with dvalid := true }
      cphTodo := s.cphTodo ++ (finalize s).calls } := by
  change execSum s = _
  simp only [execSum, writeDigest_moved _ _ moved]
  rfl

/-- Once SBOX has moved no answer of the cipher is refused (log 25). -/
theorem busyEdge_moved {p : Pins} {cw : Word} {n : Nat} {s : State} (moved : s.sboxMoved = true) :
    ∃ t, busyEdge p cw n s = .next t := by
  rcases busyEdge_cases p cw n s with
    ⟨c, -, ⟨-, ran⟩ | ⟨-, -, ran⟩ | ⟨-, -, -, ran⟩ | ⟨-, -, wrong, -⟩⟩ | ⟨-, ⟨-, ran⟩ | ⟨-, ran⟩⟩
  case inl.inr.inr.inr => simp [answerRight, moved] at wrong
  all_goals exact ⟨_, ran⟩

/-- With the hold kept, rst low and SBOX moved, an edge that takes no command is not refused (R236). -/
theorem step_moved {s : State} {p : Pins} {rest : List Pins} (inputs : s.inputs = p :: rest)
    (rst : p.rst = false) (hold : ∀ c, s.held = some c → offered p = some c)
    (noTransfer : s.phase ≠ .idle ∨ p.cmdValid = false)
    (moved : (driveSbox p s).sboxMoved = true) : ∃ t, step s = .next t := by
  rw [step_cons s p rest inputs, clockEdge_run p { s with inputs := rest } hold rst,
    driveSbox_inputs]
  unfold runEdge
  dsimp only
  rw [driveSbox_phase]
  cases phase : s.phase with
  | idle => exact ⟨_, if_neg (by simpa [phase] using noTransfer)⟩
  | busy cw n => exact busyEdge_moved moved
  | responding =>
    dsimp only
    split <;> exact ⟨_, rfl⟩

/-- Every edge leaves the value it sampled on sbox (R145). -/
theorem step_sbox {s t : State} {p : Pins} {rest : List Pins} (inputs : s.inputs = p :: rest)
    (ran : step s = .next t) : cphSbox p s = t.sbox := by
  rw [step_cons s p rest inputs] at ran
  obtain ⟨-, hc⟩ := clockEdge_next p _ t ran
  rw [driveSbox_inputs] at hc
  have sampled := (driveSbox_sbox p s).symm
  rcases hc with ⟨-, rfl⟩ | ⟨-, ⟨-, -, rfl⟩ | ⟨-, -, ha⟩ | ⟨cw, n, -, hb⟩ | ⟨-, -, rfl⟩ |
    ⟨-, -, rfl⟩⟩
  · rfl
  · exact sampled
  · obtain ⟨u, hu, rfl⟩ := acceptEdge_next ha
    obtain ⟨-, -, kept, -⟩ := transact_frame _ _ _ _ hu
    exact sampled.trans kept.symm
  · obtain ⟨_, _, _, rfl⟩ := busyEdge_port hb
    exact sampled
  · exact sampled
  · exact sampled

/-- Settles O23: SBOX is sampled first, and an edge that takes no command adds nothing to it. -/
theorem sboxMoveFreesDigests : Obligations.SboxMoveFreesDigests := by
  refine ⟨fun s moved => exec_sum_moved moved, fun s p rest inputs =>
    ⟨fun t ran => step_sbox inputs ran, fun x sbox => by simp [cphSbox, sbox],
    fun sbox => by simp [cphSbox, sbox], fun x sbox new => ⟨fun n busy => ?sum, fun noSum => ?noSum⟩,
    driveSbox_same, fun hold => ⟨fun rst noTransfer => ⟨fun x sbox new => ?moves, ?edge⟩, fun rst =>
      ⟨_, step_reset inputs rst hold, rfl, rfl⟩⟩⟩⟩
  case sum => rw [driveSbox_new sbox new, if_pos ((sumInFlight_iff s).2 ⟨n, busy⟩)]
  case noSum => rw [driveSbox_new sbox new, if_neg (by simpa [sumInFlight_iff] using noSum)]
  case edge =>
    intro t ran
    obtain ⟨_, _, _, _, rfl, -⟩ := step_noTransfer inputs rst noTransfer ran
    exact ⟨rfl, rfl, rfl⟩
  case moves =>
    have moved := driveSbox_new_sboxMoved sbox new
    obtain ⟨t, ran⟩ := step_moved inputs rst hold noTransfer moved
    obtain ⟨_, _, _, _, rfl, -⟩ := step_noTransfer inputs rst noTransfer ran
    exact ⟨_, ran, moved⟩

/-! ### What clean flags mean -/

/-- The engine has hashed the message m, SBOX steady, and if DVALID is set D is the digest of m (R28, R240). -/
structure DigestsMessage (enc : Encrypt) (m : List Byte) (s : State) : Prop where
  hashes : HashesMessage enc m s
  steady : s.sboxMoved = false
  digest : s.dvalid = true → s.d = gostDigest enc m

theorem reset_digestsMessage : DigestsMessage State.reset.encrypt [] State.reset where
  hashes := reset_hashesMessage
  steady := rfl
  digest := by simp [State.reset]

/-- SUM sets DVALID with the digest; a WRITE of bytes and RESET clear it; the others leave both (R28). -/
theorem commandEffect_digest {enc : Encrypt} {m : List Byte} {s t : State} {c : Word × Word}
    (hs : DigestsMessage enc m s) (he : CommandEffect s (decode c.1 c.2) t)
    (valid : t.dvalid = true) : t.d = gostDigest enc (messageAfter m c) := by
  unfold messageAfter
  generalize decode c.1 c.2 = r at he ⊢
  cases he with
  | illegal _ => exact hs.digest valid
  | read i rw hi =>
    have kept : (respond rw s).d = gostDigest enc m := hs.digest valid
    cases i <;> simp [isRead] at hi <;> exact kept
  | reset => simp at valid
  | write nb dw _ =>
    by_cases hnb : nb = 0#3
    · subst hnb
      have kept : s.d = gostDigest enc m := hs.digest (by simpa using valid)
      simpa [dataBytes] using kept
    · simp [hnb] at valid
  | sum =>
    rw [writeDigest_steady _ _ hs.steady]
    exact finalize_hashesMessage hs.hashes

theorem runCommands_digestsMessage {enc : Encrypt} {m : List Byte} {cs : List (Word × Word)}
    {s t : State} (hs : DigestsMessage enc m s) (run : runCommands cs s = .next t) :
    DigestsMessage enc (cs.foldl messageAfter m) t := by
  induction cs generalizing m s with
  | nil =>
    cases run
    exact hs
  | cons c cs ih =>
    obtain ⟨u, hu, he⟩ := transact_effect c.1 c.2 s
    rw [runCommands_cons cs hu] at run
    exact ih ⟨transact_hashesMessage hs.hashes he, transact_sboxMoved he hs.steady,
      commandEffect_digest hs he⟩ run

/-- Settles O46: ERR tells of the illegal words, and DVALID of the digest. -/
theorem cleanFlagsMeanDigestOfMessage : Obligations.CleanFlagsMeanDigestOfMessage := by
  intro cs
  obtain ⟨t, run, -, err⟩ := runCommands_hashesMessage cs reset_hashesMessage
  have digests := runCommands_digestsMessage reset_digestsMessage run
  exact ⟨t, run, fun noErr valid => ⟨digests.digest valid, err.symm.trans noErr⟩⟩

end Sys2Proof.Machine
